-- ==== Sys2Proof/Word.lean ====
section
/-! DEFINITION. The word types of the CHIP-8 core: bytes, 16-bit words, 12-bit addresses, register indices. -/

namespace Sys2Proof

/-- A byte: a general register, a timer, a memory cell (10_state.md R31, 20_memory.md R50). -/
abbrev Byte := BitVec 8

/-- A 16-bit word: an opcode, I, PC, a stack slot (00_scope.md R10, R11, R17). -/
abbrev Word := BitVec 16

/-- A 12-bit address field `nnn` (30_encoding.md R70). -/
abbrev Addr12 := BitVec 12

/-- The index of a general register, named by an opcode field x or y (10_state.md R31). -/
abbrev RegIdx := Fin 16

/-- `zext_16` of a 12-bit field (00_scope.md R21). -/
abbrev zext16 (a : Addr12) : Word := a.setWidth 16

/-- `zext_16` of a byte (00_scope.md R21). -/
abbrev zextByte (b : Byte) : Word := b.setWidth 16

end Sys2Proof
end

