-- ==== Sys2Proof/Config.lean ====
section
/-! DEFINITION. The parameters of the machine (00_scope.md §3): the fixed sizes R8-R17, the settings R19 with
their defaults, and the values the spec leaves OPEN, which are opaque. -/

namespace Sys2Proof

/-- `ALU_OPERAND_READ` (R19, 43_alu.md R138): does a flag instruction read its operands again after it wrote VF? -/
inductive OperandRead where
  /-- the statements run in the written order; the second reads the registers as the first left them -/
  | sequential
  /-- every operand is read once, at the start of the instruction -/
  | latched
  deriving DecidableEq, Repr

/-- `SPRITE_EDGE` (R19, 47_draw.md R176): what becomes of sprite pixels past the right or bottom edge. -/
inductive SpriteEdge where
  /-- not drawn and not tested -/
  | clip
  /-- drawn at the coordinate modulo the screen's size -/
  | wrap
  deriving DecidableEq, Repr

/-- `FONT_DIGIT` (R19, 44_index_memory.md R142): which digit `LD F, Vx` takes from Vx. -/
inductive FontDigit where
  /-- the whole byte -/
  | full
  /-- the low nibble -/
  | lowNibble
  deriving DecidableEq, Repr

/-- `FONT_PROTECT` (R19, 20_memory.md R55): what a store into 0x050-0x09F does. -/
inductive FontProtect where
  /-- it raises the fatal condition `FontWrite` -/
  | fault
  /-- the range is ordinary memory -/
  | write
  deriving DecidableEq, Repr

/-- The settings of R19 that are plain data. They are fixed for one machine; `Machine.State` carries them so that a
statement about every state is a statement about every setting (log entry 1). -/
structure Config where
  /-- `STRICT_REG_SKIP` (30_encoding.md R82) -/
  strictRegSkip  : Bool
  /-- `ALU_OPERAND_READ` (43_alu.md R138) -/
  aluOperandRead : OperandRead
  /-- `SPRITE_EDGE` (47_draw.md R176) -/
  spriteEdge     : SpriteEdge
  /-- `FONT_DIGIT` (44_index_memory.md R142) -/
  fontDigit      : FontDigit
  /-- `FONT_PROTECT` (20_memory.md R55) -/
  fontProtect    : FontProtect
  /-- `FONT_GLYPHS`: the 80 font bytes, glyph d at index 5 d (20_memory.md R54) -/
  fontGlyphs     : Vector Byte 80
  deriving DecidableEq, Repr

namespace Config

/-- `MEM_SIZE` (R8). -/
abbrev memSize : Nat := 4096
/-- `ADDR_MASK` (R8). -/
abbrev addrMask : Word := 0xFFF#16
/-- `STACK_DEPTH` (R11). -/
abbrev stackDepth : Nat := 16
/-- `TICK_HZ` (R12): the rate at which the host is to send ticks. The model has no time, so no definition reads it. -/
abbrev tickHz : Nat := 60
/-- `SCREEN_W` (R13). -/
abbrev screenW : Nat := 64
/-- `SCREEN_H` (R13). -/
abbrev screenH : Nat := 32
/-- `NUM_KEYS` (R14). -/
abbrev numKeys : Nat := 16
/-- `FONT_BASE` (R15). -/
abbrev fontBase : Word := 0x050#16
/-- `GLYPH_BYTES` (R15). -/
abbrev glyphBytes : Nat := 5
/-- The font's last address, 0x09F (R15). -/
abbrev fontLast : Nat := 0x09F
/-- `PROG_BASE` (R16): the load address and PC at reset. -/
abbrev progBase : Word := 0x200#16
/-- `PROG_MAX` (R16): the longest program the loader accepts. -/
abbrev progMax : Nat := 3584

/-- The table of 20_memory.md R54: the default of `FONT_GLYPHS`. The spec supplies these bytes from general
knowledge (its decision D23; log entry 16). -/
def standardFont : Vector Byte 80 := #v[
  0xF0, 0x90, 0x90, 0x90, 0xF0,  0x20, 0x60, 0x20, 0x20, 0x70,
  0xF0, 0x10, 0xF0, 0x80, 0xF0,  0xF0, 0x10, 0xF0, 0x10, 0xF0,
  0x90, 0x90, 0xF0, 0x10, 0x10,  0xF0, 0x80, 0xF0, 0x10, 0xF0,
  0xF0, 0x80, 0xF0, 0x90, 0xF0,  0xF0, 0x10, 0x20, 0x40, 0x40,
  0xF0, 0x90, 0xF0, 0x90, 0xF0,  0xF0, 0x90, 0xF0, 0x10, 0xF0,
  0xF0, 0x90, 0xF0, 0x90, 0x90,  0xE0, 0x90, 0xE0, 0x90, 0xE0,
  0xF0, 0x80, 0x80, 0x80, 0xF0,  0xE0, 0x90, 0x90, 0x90, 0xE0,
  0xF0, 0x80, 0xF0, 0x80, 0xF0,  0xF0, 0x80, 0xF0, 0x80, 0x80]

/-- The defaults of R19. -/
def default : Config :=
  { strictRegSkip := false, aluOperandRead := .sequential, spriteEdge := .clip,
    fontDigit := .full, fontProtect := .fault, fontGlyphs := standardFont }

/-- `keyOutOfRange (k, Keys)` (R19, 41_conditional_skip.md R117): what `SKP`/`SKNP` see for a key number above 0xF.
OPEN in the spec, so it has no body (log entry 5). -/
opaque keyOutOfRange : Byte → BitVec 16 → Bool

/-- The keypad snapshot of the n-th cycle that no listed host input supplies: a free value (log entry 2). -/
opaque freeKeys : Nat → BitVec 16

/-- The random byte of the n-th cycle that no listed host input supplies: a free value (46_random.md R161;
log entry 2). -/
opaque freeRandom : Nat → Byte

/-- `CYCLE_HZ` (R18, R19): OPEN; no rule, and no definition of the model, depends on it. -/
opaque cycleHz : Nat

end Config

end Sys2Proof
end

