-- ==== Sys2Proof/Syntax.lean ====
section
/-! DEFINITION. The 34 instruction variants of 30_encoding.md R76, one constructor per row of the opcode table in
the table's order, and what a decoder answers. -/

namespace Sys2Proof

/-- The instructions. An operand's type has exactly the width of its opcode field (R70): x and y a register index,
kk a byte, nnn an address, n a count 0..15. -/
inductive Instr where
  /-- row 1, `CLS` -/
  | cls
  /-- row 2, `RET` -/
  | ret
  /-- row 3, `JP nnn` -/
  | jp (nnn : Addr12)
  /-- row 4, `CALL nnn` -/
  | call (nnn : Addr12)
  /-- row 5, `SE Vx, kk` -/
  | seImm (x : RegIdx) (kk : Byte)
  /-- row 6, `SNE Vx, kk` -/
  | sneImm (x : RegIdx) (kk : Byte)
  /-- row 7, `SE Vx, Vy` -/
  | seReg (x y : RegIdx)
  /-- row 8, `LD Vx, kk` -/
  | ldImm (x : RegIdx) (kk : Byte)
  /-- row 9, `ADD Vx, kk` -/
  | addImm (x : RegIdx) (kk : Byte)
  /-- row 10, `LD Vx, Vy` -/
  | ldReg (x y : RegIdx)
  /-- row 11, `OR Vx, Vy` -/
  | orReg (x y : RegIdx)
  /-- row 12, `AND Vx, Vy` -/
  | andReg (x y : RegIdx)
  /-- row 13, `XOR Vx, Vy` -/
  | xorReg (x y : RegIdx)
  /-- row 14, `ADD Vx, Vy` -/
  | addReg (x y : RegIdx)
  /-- row 15, `SUB Vx, Vy` -/
  | subReg (x y : RegIdx)
  /-- row 16, `SHR Vx` (the y field is ignored, R136) -/
  | shr (x : RegIdx)
  /-- row 17, `SUBN Vx, Vy` -/
  | subnReg (x y : RegIdx)
  /-- row 18, `SHL Vx` (the y field is ignored, R137) -/
  | shl (x : RegIdx)
  /-- row 19, `SNE Vx, Vy` -/
  | sneReg (x y : RegIdx)
  /-- row 20, `LD I, nnn` -/
  | ldI (nnn : Addr12)
  /-- row 21, `JP V0, nnn` -/
  | jpV0 (nnn : Addr12)
  /-- row 22, `RND Vx, kk` -/
  | rnd (x : RegIdx) (kk : Byte)
  /-- row 23, `DRW Vx, Vy, n` -/
  | drw (x y : RegIdx) (n : Fin 16)
  /-- row 24, `SKP Vx` -/
  | skp (x : RegIdx)
  /-- row 25, `SKNP Vx` -/
  | sknp (x : RegIdx)
  /-- row 26, `LD Vx, DT` -/
  | ldFromDt (x : RegIdx)
  /-- row 27, `LD Vx, K` -/
  | ldKey (x : RegIdx)
  /-- row 28, `LD DT, Vx` -/
  | ldDt (x : RegIdx)
  /-- row 29, `LD ST, Vx` -/
  | ldSt (x : RegIdx)
  /-- row 30, `ADD I, Vx` -/
  | addI (x : RegIdx)
  /-- row 31, `LD F, Vx` -/
  | ldFont (x : RegIdx)
  /-- row 32, `LD B, Vx` -/
  | ldBcd (x : RegIdx)
  /-- row 33, `LD [I], Vx` -/
  | storeRegs (x : RegIdx)
  /-- row 34, `LD Vx, [I]` -/
  | loadRegs (x : RegIdx)
  deriving DecidableEq, Repr

/-- The answer of the decoder (30_encoding.md R75): exactly one instruction, or `UnknownOpcode`. -/
inductive Decoded where
  /-- one of the 34 variants -/
  | instr (i : Instr)
  /-- the word matches no pattern of R76; the cycle reports it (60_exceptions.md R201) -/
  | unknownOpcode (op : Word)
  deriving DecidableEq, Repr

/-- One row of the table of R76: its number, and the mask and match of its pattern. -/
structure OpcodeRow where
  num   : Nat
  mask  : Word
  value : Word
  deriving DecidableEq, Repr

end Sys2Proof
end

