-- ==== Sys2Proof/WellFormed.lean ====
section
/-! DEFINITION. The form checks that the types do not already make. An instruction's operands have exactly the widths of
their opcode fields (30_encoding.md R70), and R76 to R83 forbid no operand value, so every term of `Instr` is
well formed and there is no check on it. What can be ill formed is an opcode word that sets bits its instruction ignores,
and a glyph table that breaks R54. -/

namespace Sys2Proof

/-- The word sets no bit that its instruction ignores: the low nibble of `5xy?` and `9xy?` (30_encoding.md R82) and the
y field of `8xy6` and `8xyE` (43_alu.md R136, R137) are 0, as the encoder of R86 leaves them. -/
def canonicalWord (w : Word) : Bool :=
  match w.extractLsb' 12 4 with
  | 0x5#4 => w.extractLsb' 0 4 == 0
  | 0x9#4 => w.extractLsb' 0 4 == 0
  | 0x8#4 =>
    match w.extractLsb' 0 4 with
    | 0x6#4 => w.extractLsb' 4 4 == 0
    | 0xE#4 => w.extractLsb' 4 4 == 0
    | _ => true
  | _ => true

/-- Bits 3..0 of every glyph byte are 0 (20_memory.md R54). -/
def Config.glyphsWellFormed (c : Config) : Bool :=
  c.fontGlyphs.toList.all fun b => b.extractLsb' 0 4 == 0

end Sys2Proof
end

