-- ==== Sys2Proof/Decode.lean ====
section
/-! DEFINITION. The decoder of 30_encoding.md R75-R83, the encoder written from the same table (R76, R86), the table of
R76 itself as masks and matches, and the host's `decodeTableWord`. -/

namespace Sys2Proof

/-! ## Fields (R70) -/

/-- h = op[15:12] -/
def fieldH (w : Word) : BitVec 4 := w.extractLsb' 12 4
/-- x = op[11:8], as the register it names -/
def fieldX (w : Word) : RegIdx := (w.extractLsb' 8 4).toFin
/-- y = op[7:4], as the register it names -/
def fieldY (w : Word) : RegIdx := (w.extractLsb' 4 4).toFin
/-- n = op[3:0], the sub-op selector of family 0x8 -/
def fieldN (w : Word) : BitVec 4 := w.extractLsb' 0 4
/-- n = op[3:0], as the unsigned count 0..15 of `DRW` -/
def fieldCount (w : Word) : Fin 16 := (w.extractLsb' 0 4).toFin
/-- kk = op[7:0] -/
def fieldKk (w : Word) : Byte := w.extractLsb' 0 8
/-- nnn = op[11:0] -/
def fieldNnn (w : Word) : Addr12 := w.extractLsb' 0 12

/-! ## The decoder -/

/-- Family 0x0 (R78): the whole word must match. -/
def decode0 (w : Word) : Decoded :=
  if w = 0x00E0#16 then .instr .cls
  else if w = 0x00EE#16 then .instr .ret
  else .unknownOpcode w

/-- Families 0x5 and 0x9 (R82): the low nibble is inspected only with `STRICT_REG_SKIP = true`. -/
def decodeRegSkip (strict : Bool) (i : RegIdx → RegIdx → Instr) (w : Word) : Decoded :=
  if strict && fieldN w != 0#4 then .unknownOpcode w
  else .instr (i (fieldX w) (fieldY w))

/-- Family 0x8 (R79): the low nibble selects. -/
def decode8 (w : Word) : Decoded :=
  match fieldN w with
  | 0x0#4 => .instr (.ldReg (fieldX w) (fieldY w))
  | 0x1#4 => .instr (.orReg (fieldX w) (fieldY w))
  | 0x2#4 => .instr (.andReg (fieldX w) (fieldY w))
  | 0x3#4 => .instr (.xorReg (fieldX w) (fieldY w))
  | 0x4#4 => .instr (.addReg (fieldX w) (fieldY w))
  | 0x5#4 => .instr (.subReg (fieldX w) (fieldY w))
  | 0x6#4 => .instr (.shr (fieldX w))
  | 0x7#4 => .instr (.subnReg (fieldX w) (fieldY w))
  | 0xE#4 => .instr (.shl (fieldX w))
  | _ => .unknownOpcode w

/-- Family 0xE (R80): the low byte selects. -/
def decodeE (w : Word) : Decoded :=
  match fieldKk w with
  | 0x9E#8 => .instr (.skp (fieldX w))
  | 0xA1#8 => .instr (.sknp (fieldX w))
  | _ => .unknownOpcode w

/-- Family 0xF (R81): the low byte selects among nine. -/
def decodeF (w : Word) : Decoded :=
  match fieldKk w with
  | 0x07#8 => .instr (.ldFromDt (fieldX w))
  | 0x0A#8 => .instr (.ldKey (fieldX w))
  | 0x15#8 => .instr (.ldDt (fieldX w))
  | 0x18#8 => .instr (.ldSt (fieldX w))
  | 0x1E#8 => .instr (.addI (fieldX w))
  | 0x29#8 => .instr (.ldFont (fieldX w))
  | 0x33#8 => .instr (.ldBcd (fieldX w))
  | 0x55#8 => .instr (.storeRegs (fieldX w))
  | 0x65#8 => .instr (.loadRegs (fieldX w))
  | _ => .unknownOpcode w

/-- The decoder (R75): the high nibble first, then the low byte in families 0x0, 0x8, 0xE, 0xF (R77). It reads the
word and the setting `STRICT_REG_SKIP` alone. -/
def decode (strict : Bool) (w : Word) : Decoded :=
  match fieldH w with
  | 0x0#4 => decode0 w
  | 0x1#4 => .instr (.jp (fieldNnn w))
  | 0x2#4 => .instr (.call (fieldNnn w))
  | 0x3#4 => .instr (.seImm (fieldX w) (fieldKk w))
  | 0x4#4 => .instr (.sneImm (fieldX w) (fieldKk w))
  | 0x5#4 => decodeRegSkip strict .seReg w
  | 0x6#4 => .instr (.ldImm (fieldX w) (fieldKk w))
  | 0x7#4 => .instr (.addImm (fieldX w) (fieldKk w))
  | 0x8#4 => decode8 w
  | 0x9#4 => decodeRegSkip strict .sneReg w
  | 0xA#4 => .instr (.ldI (fieldNnn w))
  | 0xB#4 => .instr (.jpV0 (fieldNnn w))
  | 0xC#4 => .instr (.rnd (fieldX w) (fieldKk w))
  | 0xD#4 => .instr (.drw (fieldX w) (fieldY w) (fieldCount w))
  | 0xE#4 => decodeE w
  | _ => decodeF w

/-- The opcode of two bytes, the first (at the lower address) its high byte (20_memory.md R58). -/
def opcodeOfBytes (hi lo : Byte) : Word := hi ++ lo

/-- The high byte of an opcode, stored at the lower address (20_memory.md R58). -/
def hiByte (w : Word) : Byte := w.extractLsb' 8 8

/-- The low byte of an opcode (20_memory.md R58). -/
def loByte (w : Word) : Byte := w.extractLsb' 0 8

/-- Decoding a byte stream: the instruction of the first two bytes and the rest, or the word that matches no
pattern; `none` where fewer than two bytes stand. -/
def decodeBytes (strict : Bool) : List Byte → Option (Decoded × List Byte)
  | hi :: lo :: rest => some (decode strict (opcodeOfBytes hi lo), rest)
  | _ => none

/-! ## The encoder (R76, R86: an unused field is 0) -/

/-- A register index as its 4-bit field. -/
def nibble (k : Fin 16) : BitVec 4 := BitVec.ofFin k

/-- `hnnn` -/
def wordNnn (h : BitVec 4) (nnn : Addr12) : Word := h ++ nnn
/-- `hxkk` -/
def wordXKk (h : BitVec 4) (x : RegIdx) (kk : Byte) : Word := h ++ nibble x ++ kk
/-- `hxyn` -/
def wordXYN (h : BitVec 4) (x y : RegIdx) (n : BitVec 4) : Word := h ++ nibble x ++ nibble y ++ n

/-- The word of an instruction. -/
def encode : Instr → Word
  | .cls => 0x00E0#16
  | .ret => 0x00EE#16
  | .jp nnn => wordNnn 0x1#4 nnn
  | .call nnn => wordNnn 0x2#4 nnn
  | .seImm x kk => wordXKk 0x3#4 x kk
  | .sneImm x kk => wordXKk 0x4#4 x kk
  | .seReg x y => wordXYN 0x5#4 x y 0x0#4
  | .ldImm x kk => wordXKk 0x6#4 x kk
  | .addImm x kk => wordXKk 0x7#4 x kk
  | .ldReg x y => wordXYN 0x8#4 x y 0x0#4
  | .orReg x y => wordXYN 0x8#4 x y 0x1#4
  | .andReg x y => wordXYN 0x8#4 x y 0x2#4
  | .xorReg x y => wordXYN 0x8#4 x y 0x3#4
  | .addReg x y => wordXYN 0x8#4 x y 0x4#4
  | .subReg x y => wordXYN 0x8#4 x y 0x5#4
  | .shr x => wordXYN 0x8#4 x 0 0x6#4
  | .subnReg x y => wordXYN 0x8#4 x y 0x7#4
  | .shl x => wordXYN 0x8#4 x 0 0xE#4
  | .sneReg x y => wordXYN 0x9#4 x y 0x0#4
  | .ldI nnn => wordNnn 0xA#4 nnn
  | .jpV0 nnn => wordNnn 0xB#4 nnn
  | .rnd x kk => wordXKk 0xC#4 x kk
  | .drw x y n => wordXYN 0xD#4 x y (nibble n)
  | .skp x => wordXKk 0xE#4 x 0x9E#8
  | .sknp x => wordXKk 0xE#4 x 0xA1#8
  | .ldFromDt x => wordXKk 0xF#4 x 0x07#8
  | .ldKey x => wordXKk 0xF#4 x 0x0A#8
  | .ldDt x => wordXKk 0xF#4 x 0x15#8
  | .ldSt x => wordXKk 0xF#4 x 0x18#8
  | .addI x => wordXKk 0xF#4 x 0x1E#8
  | .ldFont x => wordXKk 0xF#4 x 0x29#8
  | .ldBcd x => wordXKk 0xF#4 x 0x33#8
  | .storeRegs x => wordXKk 0xF#4 x 0x55#8
  | .loadRegs x => wordXKk 0xF#4 x 0x65#8

/-- The bytes of an instruction in the order memory holds them (20_memory.md R58). -/
def encodeBytes (i : Instr) : List Byte := [hiByte (encode i), loByte (encode i)]

/-! ## The opcode map as the spec prints it (R76) -/

/-- Rows 1 to 19 of the table of R76. With `STRICT_REG_SKIP = true` rows 7 and 19 have the mask F00F (R82). -/
def opcodeRowsLow (strict : Bool) : List OpcodeRow :=
  let skipMask : Word := if strict then 0xF00F#16 else 0xF000#16
  [⟨1, 0xFFFF#16, 0x00E0#16⟩, ⟨2, 0xFFFF#16, 0x00EE#16⟩, ⟨3, 0xF000#16, 0x1000#16⟩,
   ⟨4, 0xF000#16, 0x2000#16⟩, ⟨5, 0xF000#16, 0x3000#16⟩, ⟨6, 0xF000#16, 0x4000#16⟩,
   ⟨7, skipMask, 0x5000#16⟩, ⟨8, 0xF000#16, 0x6000#16⟩, ⟨9, 0xF000#16, 0x7000#16⟩,
   ⟨10, 0xF00F#16, 0x8000#16⟩, ⟨11, 0xF00F#16, 0x8001#16⟩, ⟨12, 0xF00F#16, 0x8002#16⟩,
   ⟨13, 0xF00F#16, 0x8003#16⟩, ⟨14, 0xF00F#16, 0x8004#16⟩, ⟨15, 0xF00F#16, 0x8005#16⟩,
   ⟨16, 0xF00F#16, 0x8006#16⟩, ⟨17, 0xF00F#16, 0x8007#16⟩, ⟨18, 0xF00F#16, 0x800E#16⟩,
   ⟨19, skipMask, 0x9000#16⟩]

/-- Rows 20 to 34 of the table of R76. -/
def opcodeRowsHigh : List OpcodeRow :=
  [⟨20, 0xF000#16, 0xA000#16⟩, ⟨21, 0xF000#16, 0xB000#16⟩, ⟨22, 0xF000#16, 0xC000#16⟩,
   ⟨23, 0xF000#16, 0xD000#16⟩, ⟨24, 0xF0FF#16, 0xE09E#16⟩, ⟨25, 0xF0FF#16, 0xE0A1#16⟩,
   ⟨26, 0xF0FF#16, 0xF007#16⟩, ⟨27, 0xF0FF#16, 0xF00A#16⟩, ⟨28, 0xF0FF#16, 0xF015#16⟩,
   ⟨29, 0xF0FF#16, 0xF018#16⟩, ⟨30, 0xF0FF#16, 0xF01E#16⟩, ⟨31, 0xF0FF#16, 0xF029#16⟩,
   ⟨32, 0xF0FF#16, 0xF033#16⟩, ⟨33, 0xF0FF#16, 0xF055#16⟩, ⟨34, 0xF0FF#16, 0xF065#16⟩]

/-- The table of R76. -/
def opcodeMap (strict : Bool) : List OpcodeRow := opcodeRowsLow strict ++ opcodeRowsHigh

/-- The word has the row's pattern. -/
def OpcodeRow.matches (r : OpcodeRow) (w : Word) : Bool := w &&& r.mask == r.value

/-- The number of an instruction's row in the table of R76. -/
def rowNum : Instr → Nat
  | .cls => 1 | .ret => 2 | .jp _ => 3 | .call _ => 4 | .seImm _ _ => 5 | .sneImm _ _ => 6
  | .seReg _ _ => 7 | .ldImm _ _ => 8 | .addImm _ _ => 9 | .ldReg _ _ => 10 | .orReg _ _ => 11
  | .andReg _ _ => 12 | .xorReg _ _ => 13 | .addReg _ _ => 14 | .subReg _ _ => 15 | .shr _ => 16
  | .subnReg _ _ => 17 | .shl _ => 18 | .sneReg _ _ => 19 | .ldI _ => 20 | .jpV0 _ => 21
  | .rnd _ _ => 22 | .drw _ _ _ => 23 | .skp _ => 24 | .sknp _ => 25 | .ldFromDt _ => 26
  | .ldKey _ => 27 | .ldDt _ => 28 | .ldSt _ => 29 | .addI _ => 30 | .ldFont _ => 31
  | .ldBcd _ => 32 | .storeRegs _ => 33 | .loadRegs _ => 34

/-! ## The host's view -/

/-- The 16 bits of an instruction whose first `nbits` bits are w and whose later bits are 0. -/
def tableWord (nbits w : Nat) : Word := BitVec.ofNat 16 (w % 2 ^ nbits)

/-- The instruction the decoder reads, under the default setting, from the bytes of the opcode w as memory holds them
(high byte first); `none` where it answers `UnknownOpcode`. -/
def decodeTableWord (nbits w : Nat) : Option Instr :=
  match decodeBytes Config.default.strictRegSkip [hiByte (tableWord nbits w), loByte (tableWord nbits w)] with
  | some (.instr i, _) => some i
  | _ => none

end Sys2Proof
end

