-- ==== Sys2Proof/Machine/State.lean ====
section
/-! DEFINITION. The state of the core (10_state.md R30), its ports (R45, R46), the reasons a step can stop, and the state
after reset (70_reset_and_hazards.md R230). Plain data throughout. -/

namespace Sys2Proof.Machine

/-- Memory (20_memory.md R50) as the list of the cells that differ from their reset contents, addresses strictly rising:
the canonical form `Memory.wf` of Machine/Memory.lean. -/
abbrev Memory := List Host.Cell

/-- The framebuffer `FB[col][row]`, 64 columns of 32 pixels, true is on (10_state.md R39, 00_scope.md R22). -/
abbrev Framebuffer := Vector (Vector Bool 32) 64

/-- The fatal conditions (60_exceptions.md R200, codes 2, 3, 4). -/
inductive FatalCode where
  /-- `CALL` with SP = 16 -/
  | stackOverflow
  /-- `RET` with SP = 0 -/
  | stackUnderflow
  /-- a store into the font under `FONT_PROTECT = fault` -/
  | fontWrite
  deriving DecidableEq, Repr

/-- `Halt` (10_state.md R41): running, or halted with the condition and the fetch address of the instruction. -/
inductive Halt where
  | running
  | halted (code : FatalCode) (addr : Word)
  deriving DecidableEq, Repr

/-- The output port `event` (10_state.md R46): the outcome of the last cycle. -/
inductive Event where
  /-- the cycle completed without a condition -/
  | ok
  /-- the word matched no pattern; a report, not a fault (60_exceptions.md R201) -/
  | unknownOpcode (op addr : Word)
  /-- the instruction raised a fatal condition (60_exceptions.md R207) -/
  | fatal (code : FatalCode) (addr : Word)
  deriving DecidableEq, Repr

/-- The output port `loadResult` (10_state.md R46). -/
inductive LoadResult where
  | ok
  /-- the rejected length is recorded (60_exceptions.md R200, R205) -/
  | romTooLarge (length : Nat)
  deriving DecidableEq, Repr

/-- May a load still come? It is defined only on the reset state, before any cycle or tick (70_reset_and_hazards.md
R234; log entry 7). -/
inductive Launch where
  /-- reset, and no accepted load, cycle or tick since -/
  | fresh
  /-- an accepted load, a cycle or a tick has happened since reset -/
  | launched
  deriving DecidableEq, Repr

/-- The inputs of the core (10_state.md R45), each one atomic step (70_reset_and_hazards.md R237). -/
inductive HostInput where
  /-- one instruction cycle with the keypad snapshot (bit k is key k, 1 is pressed) and the random byte -/
  | cycle (keys : BitVec 16) (r : Byte)
  /-- one 60 Hz timer decrement -/
  | tick
  /-- re-initialise the whole state -/
  | reset
  /-- the loader command -/
  | load (bytes : List Byte)
  deriving DecidableEq, Repr

/-- The state: first the tuple of R30, then the ports of R45 and R46, then what the model adds (the pending inputs of
the host and the settings of 00_scope.md R19). -/
structure State where
  /-- V0-VF; VF is also the flag register (R31, R32) -/
  v          : Vector Byte 16
  /-- the index register I, stored unmasked (R33) -/
  i          : Word
  /-- the program counter, stored unmasked (R34) -/
  pc         : Word
  /-- the call stack (R35) -/
  stack      : Vector Word 16
  /-- the stack pointer, 0..16 (R36) -/
  sp         : Fin 17
  /-- the delay timer (R37) -/
  dt         : Byte
  /-- the sound timer (R38) -/
  st         : Byte
  /-- Memory (R40) -/
  mem        : Memory
  /-- the framebuffer (R39) -/
  fb         : Framebuffer
  /-- the halt status (R41) -/
  halt       : Halt
  /-- input port: the keypad snapshot of the cycle (R42, R45; log entry 3) -/
  keys       : BitVec 16
  /-- input port: the random byte of the cycle (R43, R45; log entry 3) -/
  rand       : Byte
  /-- output port: the outcome of the last cycle (R46; log entry 6) -/
  event      : Event
  /-- output port: the answer to the last load (R46; log entry 6) -/
  loadResult : LoadResult
  /-- the model's own: may a load still come (log entry 7) -/
  launch     : Launch
  /-- the model's own: the host's inputs to come, the next one first (log entry 2) -/
  inputs     : List HostInput
  /-- the model's own: how many cycles have taken free inputs (log entry 2) -/
  draws      : Nat
  /-- the settings of 00_scope.md R19; no step changes them (log entry 1) -/
  config     : Config
  deriving DecidableEq, Repr

/-- The reasons a step stops with a fault. -/
inductive Fault where
  /-- Raised by `cycle` and `tick` on a halted machine: it has no such step until `reset` (60_exceptions.md R207). Safe. -/
  | halted (code : FatalCode) (addr : Word)
  deriving DecidableEq, Repr

/-- The reasons a step is refused. -/
inductive Refusal where
  /-- Raised by an arm of `exec` whose instruction has no meaning yet; no arm is left so. Safe. -/
  | notModelled (mnemonic : String)
  /-- Raised by the input `load` after an accepted load, a cycle or a tick: no step of the machine
  (70_reset_and_hazards.md R234). Safe. -/
  | loadAfterLaunch
  deriving DecidableEq, Repr

/-- What a meaning or a step answers. -/
abbrev Result := Host.Outcome State Fault Refusal

/-- Every pixel off. -/
def Framebuffer.clear : Framebuffer := Vector.replicate 64 (Vector.replicate 32 false)

/-- The machine after reset, under the default settings (70_reset_and_hazards.md R230). Memory lists nothing: an unlisted
address reads as its reset content. The ports and the model's own fields have the values of log entries 2, 3, 6 and 7. -/
def State.reset : State :=
  { v := Vector.replicate 16 0, i := 0, pc := Config.progBase, stack := Vector.replicate 16 0, sp := 0,
    dt := 0, st := 0, mem := [], fb := Framebuffer.clear, halt := .running,
    keys := 0, rand := 0, event := .ok, loadResult := .ok,
    launch := .fresh, inputs := [], draws := 0, config := Config.default }

end Sys2Proof.Machine
end

