-- ==== Sys2Proof/Machine/Memory.lean ====
section
/-! DEFINITION. Memory as one space of 4096 bytes (20_memory.md R50): its canonical form, reading and writing one byte at
a masked address (00_scope.md R23), and runs of bytes at ascending addresses (R58). -/

namespace Sys2Proof.Machine

/-- What an address that memory does not list reads as: the reset content, that is the default font of R54 at
0x050-0x09F and 0 elsewhere (R57). The ONE definition of it. -/
def Memory.unlisted (a : Nat) : Byte :=
  if h : 0x050 ≤ a ∧ a ≤ Config.fontLast then
    Config.standardFont[a - 0x050]'(by have := h.2; simp only [Config.fontLast] at this; omega)
  else 0

/-- The cells from address `lo` on are strictly rising, inside the space, and differ from `Memory.unlisted`. -/
def Memory.wfFrom : Nat → Memory → Bool
  | _, [] => true
  | lo, (k, b) :: m => decide (lo ≤ k) && decide (k < Config.memSize) && (b != Memory.unlisted k) && wfFrom (k + 1) m

/-- The canonical form: equal memories are equal lists. -/
def Memory.wf (m : Memory) : Bool := Memory.wfFrom 0 m

/-- The byte at an address. -/
def Memory.read : Memory → Nat → Byte
  | [], a => Memory.unlisted a
  | (k, b) :: m, a => if k = a then b else Memory.read m a

/-- Write one byte; writing what an unlisted address reads as takes the cell out. -/
def Memory.write : Memory → Nat → Byte → Memory
  | [], a, b => if b = Memory.unlisted a then [] else [(a, b)]
  | (k, c) :: m, a, b =>
    if a < k then (if b = Memory.unlisted a then (k, c) :: m else (a, b) :: (k, c) :: m)
    else if a = k then (if b = Memory.unlisted a then m else (a, b) :: m)
    else (k, c) :: Memory.write m a b

/-- `AddressWrap` (R52): the address used is `a & 0xFFF`. -/
def maskAddr (a : Word) : Nat := (a &&& Config.addrMask).toNat

/-- `MemRead(a, 1)` (00_scope.md R23). -/
def memRead (m : Memory) (a : Word) : Byte := Memory.read m (maskAddr a)

/-- `MemWrite(a, 1, v)` (00_scope.md R23), without the font check of R55, which `State.storeBytes` makes. -/
def memWrite (m : Memory) (a : Word) (b : Byte) : Memory := Memory.write m (maskAddr a) b

/-- The n bytes at a, a+1, …, each address masked separately (R52, R60). -/
def readSeq (m : Memory) (a : Word) : Nat → List Byte
  | 0 => []
  | n + 1 => memRead m a :: readSeq m (a + 1#16) n

/-- Store the bytes at a, a+1, … in ascending order, each address masked separately (R52, R58). -/
def writeSeq (m : Memory) (a : Word) : List Byte → Memory
  | [] => m
  | b :: bs => writeSeq (memWrite m a b) (a + 1#16) bs

/-- `inFont(a)` (44_index_memory.md): the masked address lies in 0x050-0x09F. -/
def inFont (a : Word) : Bool := decide (0x050 ≤ maskAddr a) && decide (maskAddr a ≤ Config.fontLast)

/-- Some of the n addresses a, a+1, … lies in the font. -/
def touchesFont (a : Word) : Nat → Bool
  | 0 => false
  | n + 1 => inFont a || touchesFont (a + 1#16) n

end Sys2Proof.Machine
end

