-- ==== Sys2Proof/Machine/Ops.lean ====
section
/-! DEFINITION. The named operations over the state: register access, the fatal halt and the report (the only
"exceptions" of this core), the skip, call and return, and stores and loads of runs of bytes. A meaning runs after the
cycle's advance, so in every operation here PC is the fetch address plus 2 (30_encoding.md R74). -/

namespace Sys2Proof.Machine

/-! ## Registers -/

/-- VF, the flag register (10_state.md R32). -/
def VF : RegIdx := 15

/-- Read `V[k]`. -/
def State.reg (s : State) (k : RegIdx) : Byte := s.v[k.val]

/-- `V[k] <- b`; no register is hardwired (10_state.md R31). -/
def State.setReg (s : State) (k : RegIdx) (b : Byte) : State := { s with v := s.v.set k.val b }

/-- `I <- a`. -/
def State.setI (s : State) (a : Word) : State := { s with i := a }

/-- `PC <- a`. -/
def State.setPc (s : State) (a : Word) : State := { s with pc := a }

/-- `DT <- b`. -/
def State.setDt (s : State) (b : Byte) : State := { s with dt := b }

/-- `ST <- b`. -/
def State.setSt (s : State) (b : Byte) : State := { s with st := b }

/-- Replace the framebuffer. -/
def State.setFb (s : State) (f : Framebuffer) : State := { s with fb := f }

/-- Replace Memory. -/
def State.setMem (s : State) (m : Memory) : State := { s with mem := m }

/-- The byte of Memory at an address. -/
def State.byteAt (s : State) (a : Word) : Byte := memRead s.mem a

/-! ## Conditions (60_exceptions.md) -/

/-- `pc0`, the fetch address of the running instruction: PC minus the cycle's advance, mod 65536. -/
def State.pc0 (s : State) : Word := s.pc - 2#16

/-- `raise F(pc0)` (00_scope.md R24, 60_exceptions.md R207): the machine halts and reports; nothing else is written, and
PC keeps the cycle's advance. There is no trap entry (R208) and no return from one (R209): only reset leaves the halt. -/
def State.raiseFatal (s : State) (code : FatalCode) : State :=
  { s with halt := .halted code s.pc0, event := .fatal code s.pc0 }

/-- `report UnknownOpcode(op, pc0)` (60_exceptions.md R201): a no-op but for the report. -/
def State.reportUnknown (s : State) (op : Word) : State :=
  { s with event := .unknownOpcode op s.pc0 }

/-- The numeric codes of R200. -/
def FatalCode.number : FatalCode → Nat
  | .stackOverflow => 2
  | .stackUnderflow => 3
  | .fontWrite => 4

/-- The numeric codes of R200. -/
def Event.number : Event → Nat
  | .ok => 0
  | .unknownOpcode _ _ => 1
  | .fatal c _ => c.number

/-- The numeric codes of R200. -/
def LoadResult.number : LoadResult → Nat
  | .ok => 0
  | .romTooLarge _ => 5

/-! ## Control (40_control_flow.md, 41_conditional_skip.md) -/

/-- A skip (R116): PC + 2 more when the predicate holds, without fetching the skipped word. -/
def State.skipIf (s : State) (p : Bool) : State := if p then s.setPc (s.pc + 2#16) else s

/-- Push PC and go to the target; `StackOverflow` when SP = 16, before any write (R103, 60_exceptions.md R202). -/
def State.callTo (s : State) (target : Word) : State :=
  if h : s.sp.val < 16 then
    { s with stack := s.stack.set s.sp.val s.pc, sp := ⟨s.sp.val + 1, by omega⟩, pc := target }
  else s.raiseFatal .stackOverflow

/-- Pop PC; `StackUnderflow` when SP = 0, before any write (R101, 60_exceptions.md R203). The slot keeps its value. -/
def State.returnFromCall (s : State) : State :=
  if h : 0 < s.sp.val then
    { s with sp := ⟨s.sp.val - 1, by have := s.sp.isLt; omega⟩,
             pc := s.stack[s.sp.val - 1]'(by have := s.sp.isLt; omega) }
  else s.raiseFatal .stackUnderflow

/-! ## Memory (44_index_memory.md) -/

/-- Does a store of n bytes at a raise `FontWrite` (20_memory.md R55)? -/
def State.storeFaults (s : State) (a : Word) (n : Nat) : Bool :=
  s.config.fontProtect == .fault && touchesFont a n

/-- Store the bytes at a, a+1, …: all of them, or none and `FontWrite` (20_memory.md R55, 60_exceptions.md R204). -/
def State.storeBytes (s : State) (a : Word) (bs : List Byte) : State :=
  if s.storeFaults a bs.length then s.raiseFatal .fontWrite else s.setMem (writeSeq s.mem a bs)

/-- V with the bytes put into V[k], V[k+1], …. -/
def setRegsFrom (v : Vector Byte 16) (k : Nat) : List Byte → Vector Byte 16
  | [] => v
  | b :: bs => setRegsFrom (v.setIfInBounds k b) (k + 1) bs

/-- The bytes V0..Vx, x included. -/
def State.regsUpTo (s : State) (x : RegIdx) : List Byte := s.v.toList.take (x.val + 1)

/-- Load V0..Vx, x included, from a, a+1, … (R145). -/
def State.loadRegsFrom (s : State) (x : RegIdx) (a : Word) : State :=
  { s with v := setRegsFrom s.v 0 (readSeq s.mem a (x.val + 1)) }

end Sys2Proof.Machine
end

