-- ==== Sys2Proof/Machine/Flags.lean ====
section
/-! DEFINITION. The flag computations of 43_alu.md, and the order in which a flag instruction reads and writes (R138). The
collision flag of `DRW` is in Machine/Draw.lean. -/

namespace Sys2Proof.Machine

/-- A flag value is 0 or 1 (10_state.md R32). -/
def flagByte (p : Bool) : Byte := if p then 1#8 else 0#8

/-- Carry out of bit 7 (R133): the sum, taken exactly, is above 255. -/
def carryFlag (a b : Byte) : Byte := flagByte (decide (a.toNat + b.toNat > 255))

/-- No borrow (R134, R135): the minuend is strictly greater. -/
def noBorrowFlag (a b : Byte) : Byte := flagByte (decide (a.toNat > b.toNat))

/-- The bit shifted out by a right shift (R136). -/
def shiftedOutRight (a : Byte) : Byte := a &&& 1#8

/-- The bit shifted out by a left shift (R137). -/
def shiftedOutLeft (a : Byte) : Byte := (a &&& 0x80#8) >>> 7

/-- A flag instruction on V[x] and V[y] (R138): VF is written first and V[x] last; with `ALU_OPERAND_READ = sequential`
the result is computed from the registers as the flag's write left them, with `latched` from the operands read at the
start. -/
def State.flagThenResult (s : State) (x y : RegIdx) (flag result : Byte → Byte → Byte) : State :=
  let s1 := s.setReg VF (flag (s.reg x) (s.reg y))
  match s.config.aluOperandRead with
  | .sequential => s1.setReg x (result (s1.reg x) (s1.reg y))
  | .latched => s1.setReg x (result (s.reg x) (s.reg y))

end Sys2Proof.Machine
end

