-- ==== Sys2Proof/Machine/Alu.lean ====
section
/-! DEFINITION. 43_alu.md. -/

namespace Sys2Proof.Machine

/-- `OR Vx, Vy` (R130). -/
def execOrReg (x y : RegIdx) (s : State) : Result := .next (s.setReg x (s.reg x ||| s.reg y))

/-- `AND Vx, Vy` (R131). -/
def execAndReg (x y : RegIdx) (s : State) : Result := .next (s.setReg x (s.reg x &&& s.reg y))

/-- `XOR Vx, Vy` (R132). -/
def execXorReg (x y : RegIdx) (s : State) : Result := .next (s.setReg x (s.reg x ^^^ s.reg y))

/-- `ADD Vx, Vy` (R133): the sum is computed before VF is written in both settings of R138. -/
def execAddReg (x y : RegIdx) (s : State) : Result :=
  .next ((s.setReg VF (carryFlag (s.reg x) (s.reg y))).setReg x (s.reg x + s.reg y))

/-- `SUB Vx, Vy` (R134). -/
def execSubReg (x y : RegIdx) (s : State) : Result := .next (s.flagThenResult x y noBorrowFlag (fun a b => a - b))

/-- `SUBN Vx, Vy` (R135). -/
def execSubnReg (x y : RegIdx) (s : State) : Result :=
  .next (s.flagThenResult x y (fun a b => noBorrowFlag b a) (fun a b => b - a))

/-- `SHR Vx` (R136): Vy is neither read nor written. -/
def execShr (x : RegIdx) (s : State) : Result :=
  .next (s.flagThenResult x x (fun a _ => shiftedOutRight a) (fun a _ => a >>> 1))

/-- `SHL Vx` (R137): Vy is neither read nor written. -/
def execShl (x : RegIdx) (s : State) : Result :=
  .next (s.flagThenResult x x (fun a _ => shiftedOutLeft a) (fun a _ => a <<< 1))

end Sys2Proof.Machine
end

