-- ==== Sys2Proof/Machine/Operands.lean ====
section
/-! DEFINITION. The operand forms that are more than a register read: the key test of `SKP` and `SKNP`, the key scan of
`LD Vx, K`, the digit of `LD F, Vx`, the decimal digits of `LD B, Vx`, the indexed target of `JP V0, nnn`. -/

namespace Sys2Proof.Machine

/-- Is the key numbered k pressed in the snapshot (41_conditional_skip.md R114, R115)? Above 0xF the OPEN function of
R117 answers. -/
def keyPressed (keys : BitVec 16) (k : Byte) : Bool :=
  if k.toNat ≤ 0xF then keys.getLsbD k.toNat else Config.keyOutOfRange k keys

/-- The least pressed key of the snapshot (48_key_wait.md R180). -/
def lowestKey (keys : BitVec 16) : Option Nat := (List.range Config.numKeys).find? fun k => keys.getLsbD k

/-- The digit d of `LD F, Vx` under `FONT_DIGIT` (44_index_memory.md R142). -/
def fontDigitOf (f : FontDigit) (b : Byte) : Byte :=
  match f with
  | .full => b
  | .lowNibble => b &&& 0x0F#8

/-- `FONT_BASE + 5 * d` (44_index_memory.md R142). -/
def glyphAddr (d : Byte) : Word := Config.fontBase + BitVec.ofNat 16 (Config.glyphBytes * d.toNat)

/-- The hundreds, tens and ones digits of a byte (44_index_memory.md R143). -/
def decimalDigits (b : Byte) : List Byte :=
  [BitVec.ofNat 8 (b.toNat / 100), BitVec.ofNat 8 (b.toNat / 10 % 10), BitVec.ofNat 8 (b.toNat % 10)]

/-- `V[0] + nnn` as a 16-bit sum (40_control_flow.md R104). -/
def indexedTarget (v0 : Byte) (nnn : Addr12) : Word := zextByte v0 + zext16 nnn

end Sys2Proof.Machine
end

