-- ==== Sys2Proof/Machine/ControlFlow.lean ====
section
/-! DEFINITION. 40_control_flow.md. -/

namespace Sys2Proof.Machine

/-- `CLS` (R100). -/
def execCls (s : State) : Result := .next (s.setFb Framebuffer.clear)

/-- `RET` (R101). -/
def execRet (s : State) : Result := .next s.returnFromCall

/-- `JP nnn` (R102). -/
def execJp (nnn : Addr12) (s : State) : Result := .next (s.setPc (zext16 nnn))

/-- `CALL nnn` (R103). -/
def execCall (nnn : Addr12) (s : State) : Result := .next (s.callTo (zext16 nnn))

/-- `JP V0, nnn` (R104). -/
def execJpV0 (nnn : Addr12) (s : State) : Result := .next (s.setPc (indexedTarget (s.reg 0) nnn))

end Sys2Proof.Machine
end

