-- ==== Sys2Proof/Machine/Draw.lean ====
section
/-! DEFINITION. 47_draw.md: the sprite-draw unit. -/

namespace Sys2Proof.Machine

/-- The pixel at a column and a row. -/
def Framebuffer.pixel (f : Framebuffer) (col : Fin 64) (row : Fin 32) : Bool := f[col.val][row.val]

/-- The framebuffer with one pixel set. -/
def Framebuffer.setPixel (f : Framebuffer) (col : Fin 64) (row : Fin 32) (b : Bool) : Framebuffer :=
  f.set col.val (f[col.val].set row.val b)

/-- What a draw has built so far: the framebuffer, and whether a pixel that was on was targeted (R175). -/
structure Canvas where
  fb  : Framebuffer
  hit : Bool
  deriving DecidableEq, Repr

/-- The target of the sprite pixel at column offset col and row offset row (R176); `none` where it is clipped. -/
def spriteTarget (edge : SpriteEdge) (xPos : Fin 64) (yPos : Fin 32) (col row : Nat) : Option (Fin 64 × Fin 32) :=
  match edge with
  | .clip =>
    if h : xPos.val + col < 64 ∧ yPos.val + row < 32 then some (⟨xPos.val + col, h.1⟩, ⟨yPos.val + row, h.2⟩) else none
  | .wrap => some (Fin.ofNat 64 (xPos.val + col), Fin.ofNat 32 (yPos.val + row))

/-- Toggle one pixel, noting a collision (R174, R175). -/
def Canvas.toggle (c : Canvas) (t : Fin 64 × Fin 32) : Canvas :=
  { fb := c.fb.setPixel t.1 t.2 (!c.fb.pixel t.1 t.2), hit := c.hit || c.fb.pixel t.1 t.2 }

/-- One bit of a sprite row (R174): bit 7 - col is the pixel at column offset col. -/
def Canvas.drawBit (edge : SpriteEdge) (xPos : Fin 64) (yPos : Fin 32) (row : Nat) (b : Byte) (c : Canvas) (col : Nat) :
    Canvas :=
  if b.getLsbD (7 - col) then
    match spriteTarget edge xPos yPos col row with
    | some t => c.toggle t
    | none => c
  else c

/-- One row of a sprite: the eight bits, bit 7 first. -/
def Canvas.drawRow (edge : SpriteEdge) (xPos : Fin 64) (yPos : Fin 32) (row : Nat) (b : Byte) (c : Canvas) : Canvas :=
  (List.range 8).foldl (Canvas.drawBit edge xPos yPos row b) c

/-- The rows of a sprite, from row offset `row` on (R173). -/
def Canvas.drawRows (edge : SpriteEdge) (xPos : Fin 64) (yPos : Fin 32) : Nat → List Byte → Canvas → Canvas
  | _, [], c => c
  | row, b :: bs, c => Canvas.drawRows edge xPos yPos (row + 1) bs (Canvas.drawRow edge xPos yPos row b c)

/-- The origin's column, `V[x] mod 64` (R171). -/
def originCol (b : Byte) : Fin 64 := Fin.ofNat 64 b.toNat

/-- The origin's row, `V[y] mod 32` (R171). -/
def originRow (b : Byte) : Fin 32 := Fin.ofNat 32 b.toNat

/-- The canvas after drawing the n rows at I with the origin of V[x] and V[y], read before VF is reset (R171). -/
def State.drawn (s : State) (x y : RegIdx) (n : Nat) : Canvas :=
  Canvas.drawRows s.config.spriteEdge (originCol (s.reg x)) (originRow (s.reg y)) 0 (readSeq s.mem s.i n)
    { fb := s.fb, hit := false }

/-- `DRW Vx, Vy, n` (R170): VF is reset (R172) and set by a collision (R175). -/
def execDrw (x y : RegIdx) (n : Fin 16) (s : State) : Result :=
  .next ((s.setReg VF (flagByte (s.drawn x y n.val).hit)).setFb (s.drawn x y n.val).fb)

end Sys2Proof.Machine
end

