-- ==== Sys2Proof/Machine/IndexMemory.lean ====
section
/-! DEFINITION. 44_index_memory.md. `LD B, Vx`, `LD [I], Vx` and `LD Vx, [I]` do not write I (R146). -/

namespace Sys2Proof.Machine

/-- `LD I, nnn` (R140). -/
def execLdI (nnn : Addr12) (s : State) : Result := .next (s.setI (zext16 nnn))

/-- `ADD I, Vx` (R141): mod 65536, not masked, VF unchanged. -/
def execAddI (x : RegIdx) (s : State) : Result := .next (s.setI (s.i + zextByte (s.reg x)))

/-- `LD F, Vx` (R142). -/
def execLdFont (x : RegIdx) (s : State) : Result :=
  .next (s.setI (glyphAddr (fontDigitOf s.config.fontDigit (s.reg x))))

/-- `LD B, Vx` (R143). -/
def execLdBcd (x : RegIdx) (s : State) : Result := .next (s.storeBytes s.i (decimalDigits (s.reg x)))

/-- `LD [I], Vx` (R144). -/
def execStoreRegs (x : RegIdx) (s : State) : Result := .next (s.storeBytes s.i (s.regsUpTo x))

/-- `LD Vx, [I]` (R145). -/
def execLoadRegs (x : RegIdx) (s : State) : Result := .next (s.loadRegsFrom x s.i)

end Sys2Proof.Machine
end

