-- ==== Sys2Proof/Machine/KeyWait.lean ====
section
/-! DEFINITION. 48_key_wait.md. -/

namespace Sys2Proof.Machine

/-- `LD Vx, K` (R180): the least pressed key, or PC back to the instruction's own address. -/
def execLdKey (x : RegIdx) (s : State) : Result :=
  .next (match lowestKey s.keys with
    | some k => s.setReg x (BitVec.ofNat 8 k)
    | none => s.setPc s.pc0)

end Sys2Proof.Machine
end

