-- ==== Sys2Proof/Machine/Random.lean ====
section
/-! DEFINITION. 46_random.md. -/

namespace Sys2Proof.Machine

/-- `RND Vx, kk` (R160): the cycle's random byte and the mask. -/
def execRnd (x : RegIdx) (kk : Byte) (s : State) : Result := .next (s.setReg x (s.rand &&& kk))

end Sys2Proof.Machine
end

