-- ==== Sys2Proof/Machine/Skip.lean ====
section
/-! DEFINITION. 41_conditional_skip.md. -/

namespace Sys2Proof.Machine

/-- `SE Vx, kk` (R110). -/
def execSeImm (x : RegIdx) (kk : Byte) (s : State) : Result := .next (s.skipIf (s.reg x == kk))

/-- `SNE Vx, kk` (R111). -/
def execSneImm (x : RegIdx) (kk : Byte) (s : State) : Result := .next (s.skipIf (s.reg x != kk))

/-- `SE Vx, Vy` (R112). -/
def execSeReg (x y : RegIdx) (s : State) : Result := .next (s.skipIf (s.reg x == s.reg y))

/-- `SNE Vx, Vy` (R113). -/
def execSneReg (x y : RegIdx) (s : State) : Result := .next (s.skipIf (s.reg x != s.reg y))

/-- `SKP Vx` (R114, R117). -/
def execSkp (x : RegIdx) (s : State) : Result := .next (s.skipIf (keyPressed s.keys (s.reg x)))

/-- `SKNP Vx` (R115, R117). -/
def execSknp (x : RegIdx) (s : State) : Result := .next (s.skipIf (!keyPressed s.keys (s.reg x)))

end Sys2Proof.Machine
end

