-- ==== Sys2Proof/Machine/Timers.lean ====
section
/-! DEFINITION. 45_timers.md: the timer instructions, and the countdown of the tick. -/

namespace Sys2Proof.Machine

/-- `LD Vx, DT` (R150). -/
def execLdFromDt (x : RegIdx) (s : State) : Result := .next (s.setReg x s.dt)

/-- `LD DT, Vx` (R151). -/
def execLdDt (x : RegIdx) (s : State) : Result := .next (s.setDt (s.reg x))

/-- `LD ST, Vx` (R152). -/
def execLdSt (x : RegIdx) (s : State) : Result := .next (s.setSt (s.reg x))

/-- One decrement of a timer (R153): toward zero, and it stops there. -/
def countDown (b : Byte) : Byte := if b = 0#8 then 0#8 else b - 1#8

end Sys2Proof.Machine
end

