-- ==== Sys2Proof/Machine/HostSteps.lean ====
section
/-! DEFINITION. The steps the host may take (70_reset_and_hazards.md R236, R237): the instruction cycle, the tick, reset and
load, each one atomic transition; and what the host may observe between steps (10_state.md R46). -/

namespace Sys2Proof.Machine

/-! ## The cycle (30_encoding.md R72-R74) -/

/-- The opcode at PC: two bytes, high byte first, each address masked (R73). -/
def State.fetchWord (s : State) : Word := opcodeOfBytes (memRead s.mem s.pc) (memRead s.mem (s.pc + 1#16))

/-- The inputs of a cycle stand at the ports for its whole length (20_memory.md R69). -/
def State.latch (s : State) (keys : BitVec 16) (r : Byte) : State := { s with keys := keys, rand := r }

/-- What every cycle does before execution (R74): PC advances by 2 mod 65536, and the event is `Ok` unless the
instruction reports or raises. -/
def State.advance (s : State) : State := { s with pc := s.pc + 2#16, event := .ok, launch := .launched }

/-- Fetch, advance, decode, execute (R74); no step on a halted machine (60_exceptions.md R207). -/
def State.cycle (s : State) (keys : BitVec 16) (r : Byte) : Result :=
  match s.halt with
  | .halted code addr => .fault (.halted code addr)
  | .running =>
    match decode s.config.strictRegSkip s.fetchWord with
    | .instr i => exec i (s.latch keys r).advance
    | .unknownOpcode op => .next ((s.latch keys r).advance.reportUnknown op)

/-! ## The tick (45_timers.md R153) -/

/-- Both timers count down; no step on a halted machine. -/
def State.tick (s : State) : Result :=
  match s.halt with
  | .halted code addr => .fault (.halted code addr)
  | .running => .next { s with dt := countDown s.dt, st := countDown s.st, launch := .launched }

/-! ## Reset (70_reset_and_hazards.md R230) -/

/-- Memory as reset leaves it for the glyphs of the setting `FONT_GLYPHS`; it lists nothing for the default glyphs. -/
def Memory.withFont (glyphs : Vector Byte 80) : Memory := writeSeq [] Config.fontBase glyphs.toList

/-- Every piece of state at its reset value, in any state. The settings and the host's own pending inputs stay. -/
def State.restart (s : State) : State :=
  { State.reset with
    mem := Memory.withFont s.config.fontGlyphs, inputs := s.inputs, draws := s.draws, config := s.config }

/-! ## Load (70_reset_and_hazards.md R232-R234) -/

/-- The loader: the bytes go to 0x200 and up, or, when they do not fit, nothing is written and the result says so. After
an accepted load, a cycle or a tick it is no step. -/
def State.load (s : State) (bytes : List Byte) : Result :=
  match s.launch with
  | .launched => .refused .loadAfterLaunch
  | .fresh =>
    if bytes.length ≤ Config.progMax then
      .next { s with mem := writeSeq s.mem Config.progBase bytes, loadResult := .ok, launch := .launched }
    else .next { s with loadResult := .romTooLarge bytes.length }

/-- `boot(rom)` (R234): the launch state of a run under the settings c, for a rom the loader accepts. -/
def boot (c : Config) (rom : List Byte) : Option State :=
  match (State.restart { State.reset with config := c }).load rom with
  | .next s => if rom.length ≤ Config.progMax then some s else none
  | _ => none

/-! ## The step relation (R237) -/

/-- One input of the host. -/
def State.hostStep (s : State) (a : HostInput) : Result :=
  match a with
  | .cycle keys r => s.cycle keys r
  | .tick => s.tick
  | .reset => .next s.restart
  | .load bytes => s.load bytes

/-- The next step: the first pending input of the host, or, where the list is empty, a cycle whose keypad and random
byte are free values (log entry 2). -/
def State.nextStep (s : State) : Result :=
  match s.inputs with
  | a :: rest => State.hostStep { s with inputs := rest } a
  | [] => State.cycle { s with draws := s.draws + 1 } (Config.freeKeys s.draws) (Config.freeRandom s.draws)

/-! ## What the host sees (10_state.md R46) -/

/-- The outputs of the core. -/
structure Outputs where
  fb         : Framebuffer
  st         : Byte
  event      : Event
  halt       : Halt
  loadResult : LoadResult
  deriving DecidableEq, Repr

/-- The outputs the host reads between steps; reading them changes nothing (R236, row observe). -/
def State.outputs (s : State) : Outputs :=
  { fb := s.fb, st := s.st, event := s.event, halt := s.halt, loadResult := s.loadResult }

/-- The frontend is to sound while ST is not zero (45_timers.md R155). -/
def State.soundOn (s : State) : Bool := s.st != 0#8

/-! ## Placing one instruction where the next step fetches it -/

/-- The pending inputs with a cycle first; a cycle is put in front only where another input would come first. Its keypad
snapshot and its random byte are 0: DESIGN CHOICE (log entry 26), since the spec leaves both to the host
(46_random.md R161, 10_state.md R42). -/
def cycleFirst : List HostInput → List HostInput
  | [] => []
  | .cycle keys r :: rest => .cycle keys r :: rest
  | a :: rest => .cycle 0 0 :: a :: rest

/-- s, running, with the opcode w stored at PC, and a cycle as the next step. -/
def State.placeWord (s : State) (w : Word) : State :=
  { s with
    mem := writeSeq s.mem s.pc [hiByte w, loByte w], halt := .running, inputs := cycleFirst s.inputs }

end Sys2Proof.Machine
end

