-- ==== Sys2Proof/Machine/Step.lean ====
section
/-! DEFINITION. The step of the machine, and the host's way of placing one instruction. -/

namespace Sys2Proof.Machine

/-- One atomic step (70_reset_and_hazards.md R237). -/
def step (s : State) : Host.Outcome State Fault Refusal := s.nextStep

/-- s with the instruction whose bits are w stored where step fetches next, so that the next step runs it. -/
def State.withFetchWord (s : State) (nbits w : Nat) : State := s.placeWord (tableWord nbits w)

end Sys2Proof.Machine
end

