-- ==== Sys2Proof/Safety.lean ====
section
/-! DEFINITION. What counts as a good state and a safe run, in the terms the claims use. -/

namespace Sys2Proof.Machine

/-- The font bytes hold the glyphs of the setting: "written once at initialization and never mutated thereafter"
(20_memory.md R55). -/
abbrev State.FontIntact (s : State) : Prop :=
  ∀ d : Fin 80, s.byteAt (Config.fontBase + BitVec.ofNat 16 d.val) = s.config.fontGlyphs[d.val]

/-- The invariant of every step: memory keeps its canonical form and, while stores into the font fault, the font is
intact. -/
abbrev State.Inv (s : State) : Prop :=
  Memory.wf s.mem = true ∧ (s.config.fontProtect = .fault → s.FontIntact)

/-- A state in which a load may still come is the reset state (70_reset_and_hazards.md R234), but for the ports, the
host's pending inputs and the settings. -/
abbrev State.FreshIsReset (s : State) : Prop :=
  s.launch = .fresh →
    s.v = State.reset.v ∧ s.i = State.reset.i ∧ s.pc = State.reset.pc ∧ s.stack = State.reset.stack ∧
    s.sp = State.reset.sp ∧ s.dt = State.reset.dt ∧ s.st = State.reset.st ∧ s.fb = State.reset.fb ∧
    s.halt = State.reset.halt ∧ s.mem = Memory.withFont s.config.fontGlyphs

/-- The run has met no fatal condition (60_exceptions.md R207). -/
abbrev State.Running (s : State) : Prop := s.halt = .running

/-- The step neither stops nor halts the machine. -/
def SafeStep (s : State) : Prop := ∃ t, step s = .next t ∧ t.Running

/-- The next k steps neither stop nor halt the machine. -/
def SafeFor : Nat → State → Prop
  | 0, _ => True
  | k + 1, s => ∃ t, step s = .next t ∧ t.Running ∧ SafeFor k t

/-! ## The spec's whole-machine sentences, as predicates of their own -/

/-- May the instruction write V[k]? The destinations named by field x, the range V0..Vx of `LD Vx, [I]`, and VF for the
instructions that write it as a flag (10_state.md R31, R32). -/
def mayWriteReg (i : Instr) (k : RegIdx) : Bool :=
  match i with
  | .ldImm x _ | .addImm x _ | .ldReg x _ | .orReg x _ | .andReg x _ | .xorReg x _ | .rnd x _ | .ldFromDt x
  | .ldKey x => k == x
  | .addReg x _ | .subReg x _ | .subnReg x _ | .shr x | .shl x => k == x || k == VF
  | .drw _ _ _ => k == VF
  | .loadRegs x => decide (k ≤ x)
  | .cls | .ret | .jp _ | .call _ | .seImm _ _ | .sneImm _ _ | .seReg _ _ | .sneReg _ _ | .ldI _ | .jpV0 _ | .skp _
  | .sknp _ | .ldDt _ | .ldSt _ | .addI _ | .ldFont _ | .ldBcd _ | .storeRegs _ => false

/-- May the instruction write PC beyond the cycle's advance? Jumps, calls, returns, skips and `LD Vx, K`
(10_state.md R34). -/
def mayWritePc : Instr → Bool
  | .ret | .jp _ | .call _ | .jpV0 _ | .seImm _ _ | .sneImm _ _ | .seReg _ _ | .sneReg _ _ | .skp _ | .sknp _
  | .ldKey _ => true
  | .cls | .ldImm _ _ | .addImm _ _ | .ldReg _ _ | .orReg _ _ | .andReg _ _ | .xorReg _ _ | .addReg _ _ | .subReg _ _
  | .shr _ | .subnReg _ _ | .shl _ | .ldI _ | .rnd _ _ | .drw _ _ _ | .ldFromDt _ | .ldDt _ | .ldSt _ | .addI _
  | .ldFont _ | .ldBcd _ | .storeRegs _ | .loadRegs _ => false

/-- The predicate of a skip, in the cycle whose keypad snapshot stands at the port; `none` for any other instruction
(41_conditional_skip.md). -/
def skipPredicate (i : Instr) (s : State) : Option Bool :=
  match i with
  | .seImm x kk => some (s.reg x == kk)
  | .sneImm x kk => some (s.reg x != kk)
  | .seReg x y => some (s.reg x == s.reg y)
  | .sneReg x y => some (s.reg x != s.reg y)
  | .skp x => some (keyPressed s.keys (s.reg x))
  | .sknp x => some (!keyPressed s.keys (s.reg x))
  | _ => none

/-- Some set bit of the sprite targets the pixel (c, r): row `row` of the sprite is the byte at I + row (47_draw.md R173),
bit 7 - col is its pixel at column offset col (R174), the origin is (V[x] mod 64, V[y] mod 32) (R171), and past an edge
the setting `SPRITE_EDGE` decides (R176). -/
def State.SpriteCovers (s : State) (x y : RegIdx) (n : Nat) (c : Fin 64) (r : Fin 32) : Prop :=
  ∃ row < n, ∃ col < 8, (s.byteAt (s.i + BitVec.ofNat 16 row)).getLsbD (7 - col) = true ∧
    match s.config.spriteEdge with
    | .clip => (s.reg x).toNat % 64 + col = c.val ∧ (s.reg y).toNat % 32 + row = r.val
    | .wrap => ((s.reg x).toNat % 64 + col) % 64 = c.val ∧ ((s.reg y).toNat % 32 + row) % 32 = r.val

end Sys2Proof.Machine
end

