-- ==== Sys2Proof/Certificates/Slice0/Obligations.lean ====
section
/-! DEFINITION. The statements for the provers. In every statement about `exec` the state s is the one after the cycle's
advance: PC is the fetch address plus 2 and the cycle's inputs stand at the ports (30_encoding.md R74). An equation
`t = { s with f := t.f, … }` says that nothing but the named fields differs. Every statement ranges over every setting of
00_scope.md R19, since State carries the settings (log entry 1). The opcode values are those of the table of 30_encoding.md
R76, most of which the spec supplies from general knowledge (its decision D1; log entry 12). -/

open Sys2Proof Sys2Proof.Machine

/-! ## Encoding -/

/-- Decoding an encoded instruction gives it back, under either setting of `STRICT_REG_SKIP` (30_encoding.md R76, R86).
-/
def Obligations.DecodeOfEncodeIsTheInstruction : Prop :=
  ∀ (strict : Bool) (i : Instr), decode strict (encode i) = .instr i

/-- The other direction: a word that sets no ignored bit is the encoding of what it decodes to, and every encoding is
such a word (30_encoding.md R82, R86; 43_alu.md R136, R137; log entry 13). -/
def Obligations.EncodeOfDecodeIsTheCanonicalWord : Prop :=
  (∀ (strict : Bool) (w : Word) (i : Instr), decode strict w = .instr i → canonicalWord w = true → encode i = w) ∧
  (∀ i : Instr, canonicalWord (encode i) = true)

/-- The nested decoder of R77 to R82 and the mask-and-match table of R76 are one function: a word decodes to an
instruction of row r exactly when it has row r's pattern, and to `UnknownOpcode` exactly when it has none (the spec's
decisions D2 behind R78 and D3 behind R82; log entry 13). -/
def Obligations.DecoderAgreesWithOpcodeMap : Prop :=
  ∀ (strict : Bool) (w : Word),
    (∀ i : Instr, decode strict w = .instr i → ∃ r ∈ opcodeMap strict, r.num = rowNum i ∧ r.matches w = true) ∧
    (∀ r ∈ opcodeMap strict, r.matches w = true → ∃ i : Instr, decode strict w = .instr i ∧ rowNum i = r.num) ∧
    (decode strict w = .unknownOpcode w ↔ ∀ r ∈ opcodeMap strict, r.matches w = false)

/-- No word has the patterns of two rows of the table of R76. -/
def Obligations.OpcodeMapRowsAreDisjoint : Prop :=
  ∀ (strict : Bool) (w : Word), ∀ r ∈ opcodeMap strict, ∀ r' ∈ opcodeMap strict,
    r.matches w = true → r'.matches w = true → r = r'

/-- The words that decode to `UnknownOpcode` are exactly those R83 lists (the spec's decisions D2 and D3; log entry
13). -/
def Obligations.UnknownOpcodeWordsAreTheListedOnes : Prop :=
  ∀ (strict : Bool) (w : Word), decode strict w = .unknownOpcode w ↔
    (fieldH w = 0x0#4 ∧ w ≠ 0x00E0#16 ∧ w ≠ 0x00EE#16) ∨
    (fieldH w = 0x8#4 ∧ fieldN w ∈ [0x8#4, 0x9#4, 0xA#4, 0xB#4, 0xC#4, 0xD#4, 0xF#4]) ∨
    (fieldH w = 0xE#4 ∧ fieldKk w ≠ 0x9E#8 ∧ fieldKk w ≠ 0xA1#8) ∨
    (fieldH w = 0xF#4 ∧
      fieldKk w ∉ [0x07#8, 0x0A#8, 0x15#8, 0x18#8, 0x1E#8, 0x29#8, 0x33#8, 0x55#8, 0x65#8]) ∨
    (strict = true ∧ (fieldH w = 0x5#4 ∨ fieldH w = 0x9#4) ∧ fieldN w ≠ 0x0#4)

/-- A few words written out from the table of R76 decode to the instructions they stand for (a sanity statement). -/
def Obligations.SampleWordsDecode : Prop :=
  decode false 0x00E0#16 = .instr .cls ∧ decode false 0x2ABC#16 = .instr (.call 0xABC#12) ∧
  decode false 0x332A#16 = .instr (.seImm 3 0x2A#8) ∧ decode false 0x6A2F#16 = .instr (.ldImm 10 0x2F#8) ∧
  decode false 0x8014#16 = .instr (.addReg 0 1) ∧ decode false 0xF21E#16 = .instr (.addI 2) ∧
  decode false 0xF315#16 = .instr (.ldDt 3) ∧ decode false 0xC30F#16 = .instr (.rnd 3 0x0F#8) ∧
  decode false 0xD125#16 = .instr (.drw 1 2 5) ∧ decode false 0xF50A#16 = .instr (.ldKey 5) ∧
  decode false 0x5121#16 = .instr (.seReg 1 2) ∧ decode true 0x5121#16 = .unknownOpcode 0x5121#16 ∧
  decode false 0x8128#16 = .unknownOpcode 0x8128#16

/-! ## The step -/

/-- Fetch (30_encoding.md R73): the opcode is the byte at PC times 256 plus the byte at PC + 1, and a byte's address
counts only mod 4096. -/
def Obligations.FetchIsBigEndianAtMaskedAddresses : Prop :=
  ∀ s : State, s.fetchWord.toNat = (s.byteAt s.pc).toNat * 256 + (s.byteAt (s.pc + 1#16)).toNat ∧
    ∀ a c : Word, a.toNat % 4096 = c.toNat % 4096 → s.byteAt a = s.byteAt c

/-- A step runs the decoded instruction (30_encoding.md R74): on a cycle input, `exec` of it at the state with the
inputs at the ports, PC advanced by 2 and the event `Ok`; the same, with free inputs, where the host has sent none (log
entry 2, the model's choice). -/
def Obligations.StepRunsTheDecodedInstruction : Prop :=
  ∀ (s : State) (i : Instr), s.halt = .running → decode s.config.strictRegSkip s.fetchWord = .instr i →
    (∀ keys r rest, s.inputs = .cycle keys r :: rest →
      step s = exec i { s with inputs := rest, keys := keys, rand := r, pc := s.pc + 2#16, event := .ok,
                               launch := .launched }) ∧
    (s.inputs = [] →
      step s = exec i { s with draws := s.draws + 1, keys := Config.freeKeys s.draws,
                               rand := Config.freeRandom s.draws, pc := s.pc + 2#16, event := .ok,
                               launch := .launched })

/-- An unknown opcode is a reported no-op (60_exceptions.md R201): only PC advances, by 2; the event carries the opcode
and its fetch address; the machine keeps running. The field launch is the model's own (log entry 7). With no input listed
the cycle has free inputs (log entry 2, the model's choice). -/
def Obligations.UnknownOpcodeIsAReportedNoOp : Prop :=
  ∀ (s : State) (op : Word), s.halt = .running → decode s.config.strictRegSkip s.fetchWord = .unknownOpcode op →
    op = s.fetchWord ∧
    (∀ keys r rest, s.inputs = .cycle keys r :: rest →
      step s = .next { s with inputs := rest, keys := keys, rand := r, pc := s.pc + 2#16,
                              event := .unknownOpcode op s.pc, launch := .launched }) ∧
    (s.inputs = [] →
      step s = .next { s with draws := s.draws + 1, keys := Config.freeKeys s.draws,
                              rand := Config.freeRandom s.draws, pc := s.pc + 2#16,
                              event := .unknownOpcode op s.pc, launch := .launched })

/-- Every instruction executes: `exec` never stops, whatever the state (there is no instruction whose meaning is a
stop). -/
def Obligations.EveryInstructionAnswersANextState : Prop :=
  ∀ (i : Instr) (s : State), ∃ t, exec i s = .next t

/-- A cycle is a function of the state tuple and its own inputs (70_reset_and_hazards.md R239): what the ports `Keys`,
`r` and `event` held before it makes no difference. -/
def Obligations.CycleIgnoresWhatThePortsHeld : Prop :=
  ∀ (s : State) (k : BitVec 16) (r : Byte) (e : Event),
    (s.inputs = [] ∨ ∃ keys r' rest, s.inputs = .cycle keys r' :: rest) →
    step { s with keys := k, rand := r, event := e } = step s

/-- A skip (41_conditional_skip.md R116): the step advances PC by exactly 4 when the predicate holds and exactly 2
otherwise, mod 65536, and the skipped word is not reported. The predicate of `SKP` and `SKNP` rests on the OPEN function
of R117 above 0xF (log entry 5) and on the key's level (the spec's decision D36; log entry 23); the field launch is the
model's own (log entry 7). -/
def Obligations.SkipStepsAdvanceByFourOrTwo : Prop :=
  ∀ (s : State) (keys : BitVec 16) (r : Byte) (rest : List HostInput) (i : Instr) (p : Bool),
    s.halt = .running → s.inputs = .cycle keys r :: rest →
    decode s.config.strictRegSkip s.fetchWord = .instr i →
    skipPredicate i { s with keys := keys } = some p →
    ∃ t, step s = .next t ∧ t.pc.toNat = (s.pc.toNat + if p then 4 else 2) % 65536 ∧ t.event = .ok ∧
      t = { s with inputs := rest, keys := keys, rand := r, pc := t.pc, event := .ok, launch := .launched }

/-! ## Control flow (40_control_flow.md) -/

/-- `CLS` (R100). -/
def Obligations.ClsTurnsEveryPixelOff : Prop :=
  (∀ strict, decode strict 0x00E0#16 = .instr .cls) ∧
  ∀ s : State, ∃ t, exec .cls s = .next t ∧ (∀ c r, t.fb.pixel c r = false) ∧ t = { s with fb := t.fb } ∧
    ∀ a, t.byteAt a = s.byteAt a

/-- `JP nnn` and `JP V0, nnn` (R102, R104). -/
def Obligations.JumpsSetPcToTheirTarget : Prop :=
  (∀ strict nnn, decode strict (wordNnn 0x1#4 nnn) = .instr (.jp nnn) ∧
    decode strict (wordNnn 0xB#4 nnn) = .instr (.jpV0 nnn)) ∧
  ∀ (s : State) (nnn : Addr12),
    (∃ t, exec (.jp nnn) s = .next t ∧ t.pc.toNat = nnn.toNat ∧ t = { s with pc := t.pc } ∧
      ∀ a, t.byteAt a = s.byteAt a) ∧
    (∃ t, exec (.jpV0 nnn) s = .next t ∧ t.pc.toNat = (s.reg 0).toNat + nnn.toNat ∧ t = { s with pc := t.pc } ∧
      ∀ a, t.byteAt a = s.byteAt a)

/-- `CALL nnn` with a free slot (R103; the spec's decision D28): the advanced PC goes to the slot SP, SP goes up by one,
PC is nnn. -/
def Obligations.CallPushesTheReturnAddress : Prop :=
  (∀ strict nnn, decode strict (wordNnn 0x2#4 nnn) = .instr (.call nnn)) ∧
  ∀ (s : State) (nnn : Addr12), s.sp.val ≠ 16 →
    ∃ t, exec (.call nnn) s = .next t ∧ t.pc.toNat = nnn.toNat ∧ t.sp.val = s.sp.val + 1 ∧
      t.stack[s.sp.val]? = some s.pc ∧ (∀ j : Nat, j ≠ s.sp.val → t.stack[j]? = s.stack[j]?) ∧
      t = { s with pc := t.pc, sp := t.sp, stack := t.stack } ∧ ∀ a, t.byteAt a = s.byteAt a

/-- `RET` with a stacked address (R101; the spec's decisions D25 and D28): SP goes down by one and PC is the slot it
then names; no slot changes. -/
def Obligations.RetPopsTheReturnAddress : Prop :=
  (∀ strict, decode strict 0x00EE#16 = .instr .ret) ∧
  ∀ s : State, s.sp.val ≠ 0 →
    ∃ t, exec .ret s = .next t ∧ t.sp.val + 1 = s.sp.val ∧ s.stack[t.sp.val]? = some t.pc ∧
      t = { s with pc := t.pc, sp := t.sp } ∧ ∀ a, t.byteAt a = s.byteAt a

/-- `StackOverflow` and `StackUnderflow` (60_exceptions.md R202, R203, R207; the spec's decisions D14, D28 and D37; log
entry 9): the machine halts with the code and the fetch address PC - 2; no slot, no SP and no PC is written. -/
def Obligations.StackFaultsHaltAndWriteNothing : Prop :=
  ∀ (s : State) (nnn : Addr12),
    (s.sp.val = 16 → ∃ t, exec (.call nnn) s = .next t ∧ t.halt = .halted .stackOverflow (s.pc - 2#16) ∧
      t.event = .fatal .stackOverflow (s.pc - 2#16) ∧ t = { s with halt := t.halt, event := t.event }) ∧
    (s.sp.val = 0 → ∃ t, exec .ret s = .next t ∧ t.halt = .halted .stackUnderflow (s.pc - 2#16) ∧
      t.event = .fatal .stackUnderflow (s.pc - 2#16) ∧ t = { s with halt := t.halt, event := t.event })

/-- A `RET` that finds SP and the stack as a `CALL` left them resumes after that `CALL`, with SP as before it. -/
def Obligations.RetResumesAfterTheCall : Prop :=
  ∀ (s t u : State) (nnn : Addr12), s.sp.val ≠ 16 → exec (.call nnn) s = .next t → u.sp = t.sp → u.stack = t.stack →
    ∃ v, exec .ret u = .next v ∧ v.pc = s.pc ∧ v.sp = s.sp ∧ v.stack = t.stack

/-! ## Skips (41_conditional_skip.md) -/

/-- `SE Vx, kk` and `SNE Vx, kk` (R110, R111). -/
def Obligations.ImmediateSkipsCompareWithTheByte : Prop :=
  (∀ strict x kk, decode strict (wordXKk 0x3#4 x kk) = .instr (.seImm x kk) ∧
    decode strict (wordXKk 0x4#4 x kk) = .instr (.sneImm x kk)) ∧
  ∀ (s : State) (x : RegIdx) (kk : Byte),
    (∃ t, exec (.seImm x kk) s = .next t ∧ (s.reg x = kk → t = { s with pc := s.pc + 2#16 }) ∧
      (s.reg x ≠ kk → t = s)) ∧
    (∃ t, exec (.sneImm x kk) s = .next t ∧ (s.reg x ≠ kk → t = { s with pc := s.pc + 2#16 }) ∧
      (s.reg x = kk → t = s))

/-- `SE Vx, Vy` and `SNE Vx, Vy` (R112, R113), with what the low nibble does to their decoding (30_encoding.md R82, the
spec's decision D3; log entry 13). -/
def Obligations.RegisterSkipsCompareTheRegisters : Prop :=
  (∀ strict x y n,
    decode strict (wordXYN 0x5#4 x y n) =
      (if strict = true ∧ n ≠ 0#4 then .unknownOpcode (wordXYN 0x5#4 x y n) else .instr (.seReg x y)) ∧
    decode strict (wordXYN 0x9#4 x y n) =
      (if strict = true ∧ n ≠ 0#4 then .unknownOpcode (wordXYN 0x9#4 x y n) else .instr (.sneReg x y))) ∧
  ∀ (s : State) (x y : RegIdx),
    (∃ t, exec (.seReg x y) s = .next t ∧ (s.reg x = s.reg y → t = { s with pc := s.pc + 2#16 }) ∧
      (s.reg x ≠ s.reg y → t = s)) ∧
    (∃ t, exec (.sneReg x y) s = .next t ∧ (s.reg x ≠ s.reg y → t = { s with pc := s.pc + 2#16 }) ∧
      (s.reg x = s.reg y → t = s))

/-- `SKP Vx` and `SKNP Vx` (R114, R115, R117): they test the key's level in the cycle's snapshot (the spec's decision
D36); above 0xF the OPEN function of R117 answers for both, whatever it is (D8; log entry 5). -/
def Obligations.KeySkipsTestTheSnapshot : Prop :=
  (∀ strict x, decode strict (wordXKk 0xE#4 x 0x9E#8) = .instr (.skp x) ∧
    decode strict (wordXKk 0xE#4 x 0xA1#8) = .instr (.sknp x)) ∧
  ∀ (s : State) (x : RegIdx), ∃ p : Bool,
    ((s.reg x).toNat ≤ 0xF → p = s.keys.getLsbD (s.reg x).toNat) ∧
    (0xF < (s.reg x).toNat → p = Config.keyOutOfRange (s.reg x) s.keys) ∧
    exec (.skp x) s = .next (if p then { s with pc := s.pc + 2#16 } else s) ∧
    exec (.sknp x) s = .next (if p then s else { s with pc := s.pc + 2#16 })

/-! ## Moves and the ALU (42_move_add.md, 43_alu.md) -/

/-- `LD Vx, kk`, `ADD Vx, kk` and `LD Vx, Vy` (R120, R121, R122): V[x] and nothing else, no flag. -/
def Obligations.MovesAndImmediateAddWriteVxOnly : Prop :=
  (∀ strict x kk, decode strict (wordXKk 0x6#4 x kk) = .instr (.ldImm x kk) ∧
    decode strict (wordXKk 0x7#4 x kk) = .instr (.addImm x kk)) ∧
  (∀ strict x y, decode strict (wordXYN 0x8#4 x y 0x0#4) = .instr (.ldReg x y)) ∧
  ∀ (s : State) (x y : RegIdx) (kk : Byte),
    (∃ t, exec (.ldImm x kk) s = .next t ∧ (∀ k, t.reg k = if k = x then kk else s.reg k) ∧
      t = { s with v := t.v } ∧ ∀ a, t.byteAt a = s.byteAt a) ∧
    (∃ t, exec (.addImm x kk) s = .next t ∧ (t.reg x).toNat = ((s.reg x).toNat + kk.toNat) % 256 ∧
      (∀ k, k ≠ x → t.reg k = s.reg k) ∧ t = { s with v := t.v } ∧ ∀ a, t.byteAt a = s.byteAt a) ∧
    (∃ t, exec (.ldReg x y) s = .next t ∧ (∀ k, t.reg k = if k = x then s.reg y else s.reg k) ∧
      t = { s with v := t.v } ∧ ∀ a, t.byteAt a = s.byteAt a)

/-- `OR`, `AND` and `XOR` (R130, R131, R132): bit by bit into V[x] and nothing else, no flag. -/
def Obligations.BitwiseInstructionsWriteVxOnly : Prop :=
  (∀ strict x y, decode strict (wordXYN 0x8#4 x y 0x1#4) = .instr (.orReg x y) ∧
    decode strict (wordXYN 0x8#4 x y 0x2#4) = .instr (.andReg x y) ∧
    decode strict (wordXYN 0x8#4 x y 0x3#4) = .instr (.xorReg x y)) ∧
  ∀ (s : State) (x y : RegIdx),
    (∃ t, exec (.orReg x y) s = .next t ∧
      (∀ j, (t.reg x).getLsbD j = ((s.reg x).getLsbD j || (s.reg y).getLsbD j)) ∧
      (∀ k, k ≠ x → t.reg k = s.reg k) ∧ t = { s with v := t.v } ∧ ∀ a, t.byteAt a = s.byteAt a) ∧
    (∃ t, exec (.andReg x y) s = .next t ∧
      (∀ j, (t.reg x).getLsbD j = ((s.reg x).getLsbD j && (s.reg y).getLsbD j)) ∧
      (∀ k, k ≠ x → t.reg k = s.reg k) ∧ t = { s with v := t.v } ∧ ∀ a, t.byteAt a = s.byteAt a) ∧
    (∃ t, exec (.xorReg x y) s = .next t ∧
      (∀ j, (t.reg x).getLsbD j = ((s.reg x).getLsbD j ^^ (s.reg y).getLsbD j)) ∧
      (∀ k, k ≠ x → t.reg k = s.reg k) ∧ t = { s with v := t.v } ∧ ∀ a, t.byteAt a = s.byteAt a)

/-- `ADD Vx, Vy` (R133): V[x] is the sum mod 256, VF the carry; where x is F, V[x] wins; y = F adds the old VF. -/
def Obligations.AddWritesSumAndCarry : Prop :=
  (∀ strict x y, decode strict (wordXYN 0x8#4 x y 0x4#4) = .instr (.addReg x y)) ∧
  ∀ (s : State) (x y : RegIdx),
    ∃ t, exec (.addReg x y) s = .next t ∧ (t.reg x).toNat = ((s.reg x).toNat + (s.reg y).toNat) % 256 ∧
      (x ≠ VF → t.reg VF = if (s.reg x).toNat + (s.reg y).toNat > 255 then 1#8 else 0#8) ∧
      (∀ k, k ≠ x → k ≠ VF → t.reg k = s.reg k) ∧ t = { s with v := t.v } ∧ ∀ a, t.byteAt a = s.byteAt a

/-- `SUB Vx, Vy` and `SUBN Vx, Vy` (R134, R135) in both settings of `ALU_OPERAND_READ` (R138, the spec's decision D4; log
entry 14): VF says strictly greater; the difference is of the operands, or, with `sequential`, of the registers as VF's
write left them. -/
def Obligations.SubtractionsWriteDifferenceAndNoBorrow : Prop :=
  (∀ strict x y, decode strict (wordXYN 0x8#4 x y 0x5#4) = .instr (.subReg x y) ∧
    decode strict (wordXYN 0x8#4 x y 0x7#4) = .instr (.subnReg x y)) ∧
  ∀ (s : State) (x y : RegIdx),
    (∃ t f a b, exec (.subReg x y) s = .next t ∧
      f = (if (s.reg x).toNat > (s.reg y).toNat then 1#8 else 0#8) ∧
      a = (if s.config.aluOperandRead = .sequential ∧ x = VF then f else s.reg x) ∧
      b = (if s.config.aluOperandRead = .sequential ∧ y = VF then f else s.reg y) ∧
      (t.reg x).toNat = (256 + a.toNat - b.toNat) % 256 ∧ (x ≠ VF → t.reg VF = f) ∧
      (∀ k, k ≠ x → k ≠ VF → t.reg k = s.reg k) ∧ t = { s with v := t.v } ∧ ∀ a, t.byteAt a = s.byteAt a) ∧
    (∃ t f a b, exec (.subnReg x y) s = .next t ∧
      f = (if (s.reg y).toNat > (s.reg x).toNat then 1#8 else 0#8) ∧
      a = (if s.config.aluOperandRead = .sequential ∧ x = VF then f else s.reg x) ∧
      b = (if s.config.aluOperandRead = .sequential ∧ y = VF then f else s.reg y) ∧
      (t.reg x).toNat = (256 + b.toNat - a.toNat) % 256 ∧ (x ≠ VF → t.reg VF = f) ∧
      (∀ k, k ≠ x → k ≠ VF → t.reg k = s.reg k) ∧ t = { s with v := t.v } ∧ ∀ a, t.byteAt a = s.byteAt a)

/-- `SHR Vx` and `SHL Vx` (R136, R137) in both settings of R138 (the spec's decision D4), whatever stands in the ignored
y field (D35): VF is the bit
shifted out, V[x] half or double, of the register or, with x = F and `sequential`, of the new flag. -/
def Obligations.ShiftsWriteResultAndBitShiftedOut : Prop :=
  (∀ strict x y, decode strict (wordXYN 0x8#4 x y 0x6#4) = .instr (.shr x) ∧
    decode strict (wordXYN 0x8#4 x y 0xE#4) = .instr (.shl x)) ∧
  ∀ (s : State) (x : RegIdx),
    (∃ t f a, exec (.shr x) s = .next t ∧ f.toNat = (s.reg x).toNat % 2 ∧
      a = (if s.config.aluOperandRead = .sequential ∧ x = VF then f else s.reg x) ∧
      (t.reg x).toNat = a.toNat / 2 ∧ (x ≠ VF → t.reg VF = f) ∧
      (∀ k, k ≠ x → k ≠ VF → t.reg k = s.reg k) ∧ t = { s with v := t.v } ∧ ∀ a, t.byteAt a = s.byteAt a) ∧
    (∃ t f a, exec (.shl x) s = .next t ∧ f.toNat = (s.reg x).toNat / 128 ∧
      a = (if s.config.aluOperandRead = .sequential ∧ x = VF then f else s.reg x) ∧
      (t.reg x).toNat = 2 * a.toNat % 256 ∧ (x ≠ VF → t.reg VF = f) ∧
      (∀ k, k ≠ x → k ≠ VF → t.reg k = s.reg k) ∧ t = { s with v := t.v } ∧ ∀ a, t.byteAt a = s.byteAt a)

/-! ## Index register and memory (44_index_memory.md) -/

/-- `LD I, nnn` (R140). -/
def Obligations.LdISetsTheIndexRegister : Prop :=
  (∀ strict nnn, decode strict (wordNnn 0xA#4 nnn) = .instr (.ldI nnn)) ∧
  ∀ (s : State) (nnn : Addr12),
    ∃ t, exec (.ldI nnn) s = .next t ∧ t.i.toNat = nnn.toNat ∧ t = { s with i := t.i } ∧ ∀ a, t.byteAt a = s.byteAt a

/-- `ADD I, Vx` and `LD F, Vx` (R141, R142; the spec's decisions D13 and D7): I mod 65536 without a flag, and the glyph
address 0x050 + 5 d of the digit d that the setting `FONT_DIGIT` takes. -/
def Obligations.AddIAndLdFWriteTheIndexRegister : Prop :=
  (∀ strict x, decode strict (wordXKk 0xF#4 x 0x1E#8) = .instr (.addI x) ∧
    decode strict (wordXKk 0xF#4 x 0x29#8) = .instr (.ldFont x)) ∧
  ∀ (s : State) (x : RegIdx),
    (∃ t, exec (.addI x) s = .next t ∧ t.i.toNat = (s.i.toNat + (s.reg x).toNat) % 65536 ∧
      t = { s with i := t.i } ∧ ∀ a, t.byteAt a = s.byteAt a) ∧
    (∃ t, exec (.ldFont x) s = .next t ∧
      (s.config.fontDigit = .full → t.i.toNat = 0x050 + 5 * (s.reg x).toNat) ∧
      (s.config.fontDigit = .lowNibble → t.i.toNat = 0x050 + 5 * ((s.reg x).toNat % 16)) ∧
      t = { s with i := t.i } ∧ ∀ a, t.byteAt a = s.byteAt a)

/-- `LD B, Vx` where no target is a protected font byte (R143, R146; the spec's decisions D9, D10 and D38): the
hundreds, tens and ones at I, I+1, I+2; every other byte, every register and I are unchanged. -/
def Obligations.LdBStoresTheDecimalDigits : Prop :=
  (∀ strict x, decode strict (wordXKk 0xF#4 x 0x33#8) = .instr (.ldBcd x)) ∧
  ∀ (s : State) (x : RegIdx), Memory.wf s.mem = true →
    (s.config.fontProtect = .write ∨ ∀ k < 3, inFont (s.i + BitVec.ofNat 16 k) = false) →
    ∃ t, exec (.ldBcd x) s = .next t ∧
      (t.byteAt s.i).toNat = (s.reg x).toNat / 100 ∧
      (t.byteAt (s.i + 1#16)).toNat = (s.reg x).toNat / 10 % 10 ∧
      (t.byteAt (s.i + 2#16)).toNat = (s.reg x).toNat % 10 ∧
      (∀ c, (∀ k < 3, maskAddr c ≠ maskAddr (s.i + BitVec.ofNat 16 k)) → t.byteAt c = s.byteAt c) ∧
      t = { s with mem := t.mem }

/-- `LD [I], Vx` where no target is a protected font byte (R144, R146; the spec's decisions D9, D10 and D38): V0..Vx at
I..I+x, x included; every other byte, every register and I are unchanged. -/
def Obligations.LdStoreWritesTheRegisters : Prop :=
  (∀ strict x, decode strict (wordXKk 0xF#4 x 0x55#8) = .instr (.storeRegs x)) ∧
  ∀ (s : State) (x : RegIdx), Memory.wf s.mem = true →
    (s.config.fontProtect = .write ∨ ∀ k ≤ x.val, inFont (s.i + BitVec.ofNat 16 k) = false) →
    ∃ t, exec (.storeRegs x) s = .next t ∧
      (∀ k : RegIdx, k ≤ x → t.byteAt (s.i + BitVec.ofNat 16 k.val) = s.reg k) ∧
      (∀ c, (∀ k ≤ x.val, maskAddr c ≠ maskAddr (s.i + BitVec.ofNat 16 k)) → t.byteAt c = s.byteAt c) ∧
      t = { s with mem := t.mem }

/-- `FontWrite` (20_memory.md R55, 60_exceptions.md R204, R207; the spec's decisions D10 and D38): under
`FONT_PROTECT = fault`, a store any of whose targets is in 0x050-0x09F writes no byte and halts. -/
def Obligations.FontStoresHaltAndWriteNothing : Prop :=
  ∀ (s : State) (x : RegIdx), s.config.fontProtect = .fault →
    ((∃ k < 3, inFont (s.i + BitVec.ofNat 16 k) = true) →
      ∃ t, exec (.ldBcd x) s = .next t ∧ t.halt = .halted .fontWrite (s.pc - 2#16) ∧
        t.event = .fatal .fontWrite (s.pc - 2#16) ∧ t = { s with halt := t.halt, event := t.event }) ∧
    ((∃ k ≤ x.val, inFont (s.i + BitVec.ofNat 16 k) = true) →
      ∃ t, exec (.storeRegs x) s = .next t ∧ t.halt = .halted .fontWrite (s.pc - 2#16) ∧
        t.event = .fatal .fontWrite (s.pc - 2#16) ∧ t = { s with halt := t.halt, event := t.event })

/-- `LD Vx, [I]` (R145): V0..Vx from I..I+x, x included; every other register, I (R146, the spec's decision D9; log entry
19) and all of memory are unchanged. -/
def Obligations.LdLoadReadsTheRegisters : Prop :=
  (∀ strict x, decode strict (wordXKk 0xF#4 x 0x65#8) = .instr (.loadRegs x)) ∧
  ∀ (s : State) (x : RegIdx),
    ∃ t, exec (.loadRegs x) s = .next t ∧
      (∀ k : RegIdx, t.reg k = if k ≤ x then s.byteAt (s.i + BitVec.ofNat 16 k.val) else s.reg k) ∧
      t = { s with v := t.v } ∧ ∀ a, t.byteAt a = s.byteAt a

/-- Storing V0..Vx at I and loading V0..Vx back from memory and I as the store left them restores V0..Vx exactly, x
included (95_test_vectors.md S10; R144, R145, R146). -/
def Obligations.StoreThenLoadRestoresTheRegisters : Prop :=
  ∀ (s t u : State) (x : RegIdx), Memory.wf s.mem = true → exec (.storeRegs x) s = .next t → t.halt = .running →
    s.halt = .running → u.mem = t.mem → u.i = t.i →
    ∃ w, exec (.loadRegs x) u = .next w ∧ ∀ k : RegIdx, k ≤ x → w.reg k = s.reg k

/-! ## Timers, random byte, key wait -/

/-- `LD Vx, DT`, `LD DT, Vx` and `LD ST, Vx` (45_timers.md R150, R151, R152). -/
def Obligations.TimerInstructionsMoveTheTimers : Prop :=
  (∀ strict x, decode strict (wordXKk 0xF#4 x 0x07#8) = .instr (.ldFromDt x) ∧
    decode strict (wordXKk 0xF#4 x 0x15#8) = .instr (.ldDt x) ∧
    decode strict (wordXKk 0xF#4 x 0x18#8) = .instr (.ldSt x)) ∧
  ∀ (s : State) (x : RegIdx),
    (∃ t, exec (.ldFromDt x) s = .next t ∧ (∀ k, t.reg k = if k = x then s.dt else s.reg k) ∧
      t = { s with v := t.v } ∧ ∀ a, t.byteAt a = s.byteAt a) ∧
    (∃ t, exec (.ldDt x) s = .next t ∧ t.dt = s.reg x ∧ t = { s with dt := t.dt } ∧ ∀ a, t.byteAt a = s.byteAt a) ∧
    (∃ t, exec (.ldSt x) s = .next t ∧ t.st = s.reg x ∧ t = { s with st := t.st } ∧ ∀ a, t.byteAt a = s.byteAt a)

/-- The tick of a running machine (45_timers.md R153): both timers count down by one while above 0 and stop there;
nothing else of the machine changes but the model's own fields inputs and launch (log entries 2 and 7). -/
def Obligations.TickCountsBothTimersDown : Prop :=
  ∀ (s : State) (rest : List HostInput), s.halt = .running → s.inputs = .tick :: rest →
    ∃ t, step s = .next t ∧ t.dt.toNat = s.dt.toNat - 1 ∧ t.st.toNat = s.st.toNat - 1 ∧
      t = { s with dt := t.dt, st := t.st, inputs := rest, launch := .launched }

/-- `RND Vx, kk` (46_random.md R160), for every random byte r of the cycle. -/
def Obligations.RndMasksTheRandomByte : Prop :=
  (∀ strict x kk, decode strict (wordXKk 0xC#4 x kk) = .instr (.rnd x kk)) ∧
  ∀ (s : State) (x : RegIdx) (kk : Byte),
    ∃ t, exec (.rnd x kk) s = .next t ∧
      (∀ j, (t.reg x).getLsbD j = (s.rand.getLsbD j && kk.getLsbD j)) ∧
      (∀ k, k ≠ x → t.reg k = s.reg k) ∧ t = { s with v := t.v } ∧ ∀ a, t.byteAt a = s.byteAt a

/-- The random byte reaches a program through `RND` alone (46_random.md R161): any other instruction ignores it. -/
def Obligations.OnlyRndReadsTheRandomByte : Prop :=
  ∀ (i : Instr) (s t : State) (r : Byte), (∀ x kk, i ≠ .rnd x kk) → exec i s = .next t →
    exec i { s with rand := r } = .next { t with rand := r }

/-- The keypad reaches a program through `SKP`, `SKNP` and `LD Vx, K` alone: they are the only instructions whose rules
have `Keys` among their operands (41_conditional_skip.md R114, R115; 48_key_wait.md R180). -/
def Obligations.OnlyKeyInstructionsReadTheKeypad : Prop :=
  ∀ (i : Instr) (s t : State) (keys : BitVec 16), (∀ x, i ≠ .skp x ∧ i ≠ .sknp x ∧ i ≠ .ldKey x) →
    exec i s = .next t → exec i { s with keys := keys } = .next { t with keys := keys }

/-- `LD Vx, K` (48_key_wait.md R180): the least pressed key goes to V[x]; with none pressed PC goes back to the
instruction's own address and nothing else changes (the spec's decisions D16 and D36; log entry 23). -/
def Obligations.KeyWaitTakesTheLeastKeyOrStays : Prop :=
  (∀ strict x, decode strict (wordXKk 0xF#4 x 0x0A#8) = .instr (.ldKey x)) ∧
  ∀ (s : State) (x : RegIdx),
    (∀ k < 16, s.keys.getLsbD k = true → (∀ j < k, s.keys.getLsbD j = false) →
      ∃ t, exec (.ldKey x) s = .next t ∧ (t.reg x).toNat = k ∧ (∀ j, j ≠ x → t.reg j = s.reg j) ∧
        t = { s with v := t.v } ∧ ∀ a, t.byteAt a = s.byteAt a) ∧
    ((∀ k < 16, s.keys.getLsbD k = false) → exec (.ldKey x) s = .next { s with pc := s.pc - 2#16 })

/-- A wait of any number of cycles leaves the machine as it was, whatever random bytes come with them, and the first cycle
with a key pressed ends it (48_key_wait.md R180, R182; the spec's decisions D16 and D36; log entry 23): after the keyless
cycles with the random bytes rs, and one cycle whose least pressed key is j, V[x] is j and PC is past the instruction. -/
def Obligations.KeyWaitEndsAtTheFirstPressedKey : Prop :=
  ∀ (s : State) (x : RegIdx) (rs : List Byte) (j : Nat) (keys : BitVec 16) (r : Byte) (rest : List HostInput),
    s.halt = .running → decode s.config.strictRegSkip s.fetchWord = .instr (.ldKey x) →
    s.inputs = rs.map (fun b => .cycle 0#16 b) ++ .cycle keys r :: rest →
    j < 16 → keys.getLsbD j = true → (∀ i < j, keys.getLsbD i = false) →
    (∃ t, Sys2Proof.core.run rs.length s = .next t ∧ t.pc = s.pc ∧ t.v = s.v ∧ t.i = s.i ∧ t.sp = s.sp ∧
      t.stack = s.stack ∧ t.dt = s.dt ∧ t.st = s.st ∧ t.mem = s.mem ∧ t.fb = s.fb ∧ t.halt = .running) ∧
    (∃ t, Sys2Proof.core.run (rs.length + 1) s = .next t ∧ (t.reg x).toNat = j ∧ t.pc = s.pc + 2#16 ∧
      (∀ y, y ≠ x → t.reg y = s.reg y) ∧ t.inputs = rest)

/-! ## The sprite draw (47_draw.md) -/

/-- `DRW Vx, Vy, n` (R170 to R177) at the level of one pixel, in both settings of `SPRITE_EDGE`: a pixel that a set bit
of the sprite targets is toggled, every other pixel stays (the spec's decisions D5, D6 and D30; log entry 15); VF is 1
exactly when a toggled pixel was on; the origin is read from the registers before VF is written; nothing else changes.
-/
def Obligations.DrwTogglesExactlyTheCoveredPixels : Prop :=
  (∀ strict x y n, decode strict (wordXYN 0xD#4 x y (nibble n)) = .instr (.drw x y n)) ∧
  ∀ (s : State) (x y : RegIdx) (n : Fin 16),
    ∃ t, exec (.drw x y n) s = .next t ∧
      (∀ c r, s.SpriteCovers x y n.val c r → t.fb.pixel c r = !s.fb.pixel c r) ∧
      (∀ c r, ¬ s.SpriteCovers x y n.val c r → t.fb.pixel c r = s.fb.pixel c r) ∧
      ((∃ c r, s.SpriteCovers x y n.val c r ∧ s.fb.pixel c r = true) → t.reg VF = 1#8) ∧
      ((∀ c r, s.SpriteCovers x y n.val c r → s.fb.pixel c r = false) → t.reg VF = 0#8) ∧
      (∀ k, k ≠ VF → t.reg k = s.reg k) ∧
      t = { s with v := t.v, fb := t.fb } ∧ ∀ a, t.byteAt a = s.byteAt a

/-- Drawing the same sprite twice restores the screen (95_test_vectors.md S11), where neither coordinate register is VF,
which the first draw writes. -/
def Obligations.DrawingTwiceRestoresTheScreen : Prop :=
  ∀ (s t u : State) (x y : RegIdx) (n : Fin 16), x ≠ VF → y ≠ VF →
    exec (.drw x y n) s = .next t → exec (.drw x y n) t = .next u → u.fb = s.fb

/-! ## Who may write what -/

/-- A register changes only where an instruction names it as its destination, loads it, or writes VF as a flag
(10_state.md R31, R32). -/
def Obligations.RegistersChangeOnlyWhereNamed : Prop :=
  ∀ (i : Instr) (s t : State) (k : RegIdx), exec i s = .next t → mayWriteReg i k = false → t.reg k = s.reg k

/-- I, DT, ST, the stack, SP and PC are written by the instructions 10_state.md lists for them, and by no other (R33 to
R38). -/
def Obligations.SpecialRegistersHaveTheirOwnWriters : Prop :=
  ∀ (i : Instr) (s t : State), exec i s = .next t →
    (t.i ≠ s.i → (∃ a, i = .ldI a) ∨ (∃ x, i = .addI x) ∨ (∃ x, i = .ldFont x)) ∧
    (t.dt ≠ s.dt → ∃ x, i = .ldDt x) ∧
    (t.st ≠ s.st → ∃ x, i = .ldSt x) ∧
    (t.stack ≠ s.stack → ∃ a, i = .call a) ∧
    (t.sp ≠ s.sp → (∃ a, i = .call a) ∨ i = .ret) ∧
    (t.pc ≠ s.pc → mayWritePc i = true)

/-- Memory is written by `LD B, Vx` and `LD [I], Vx` alone (20_memory.md R50, R60), the framebuffer by `CLS` and `DRW`
alone (10_state.md R39), and only `CALL`, `RET`, `LD B, Vx` and `LD [I], Vx` can halt the machine (60_exceptions.md
R210); no instruction touches the ports, the host's inputs or the settings. -/
def Obligations.MemoryScreenAndHaltHaveTheirOwnWriters : Prop :=
  ∀ (i : Instr) (s t : State), exec i s = .next t →
    (t.mem ≠ s.mem → (∃ x, i = .ldBcd x) ∨ (∃ x, i = .storeRegs x)) ∧
    (t.fb ≠ s.fb → i = .cls ∨ ∃ x y n, i = .drw x y n) ∧
    (t.halt ≠ s.halt ∨ t.event ≠ s.event →
      i = .ret ∨ (∃ a, i = .call a) ∨ (∃ x, i = .ldBcd x) ∨ (∃ x, i = .storeRegs x)) ∧
    t.keys = s.keys ∧ t.rand = s.rand ∧ t.inputs = s.inputs ∧ t.config = s.config ∧ t.launch = s.launch ∧
    t.loadResult = s.loadResult ∧ t.draws = s.draws

/-- An instruction that halts the machine makes no write of its own (60_exceptions.md R207, R208; the spec's decisions
D14 and D37): all that differs is `Halt` and the event, and both name the fetch address. -/
def Obligations.FatalConditionsArePrecise : Prop :=
  ∀ (i : Instr) (s t : State), s.halt = .running → exec i s = .next t → t.halt ≠ .running →
    ∃ code, t = { s with halt := .halted code (s.pc - 2#16), event := .fatal code (s.pc - 2#16) }

/-- No step changes the settings, whatever the host sends (00_scope.md R19; log entry 1, the model's choice). -/
def Obligations.NoStepChangesTheSettings : Prop :=
  ∀ s t : State, step s = .next t → t.config = s.config

/-! ## Reset, load, halt -/

/-- The state after reset (70_reset_and_hazards.md R230; FB, I and the memory outside the font by the spec's decisions
D17 and D22, the font bytes by D23). -/
def Obligations.ResetStateHasItsValues : Prop :=
  (∀ k, State.reset.reg k = 0#8) ∧ State.reset.i = 0#16 ∧ State.reset.pc = 0x200#16 ∧
  (∀ j : Fin 16, State.reset.stack[j.val] = 0#16) ∧ State.reset.sp.val = 0 ∧ State.reset.dt = 0#8 ∧
  State.reset.st = 0#8 ∧ (∀ c r, State.reset.fb.pixel c r = false) ∧ State.reset.halt = .running ∧
  (∀ a : Word, inFont a = false → State.reset.byteAt a = 0#8) ∧
  (∀ d : Fin 80, State.reset.byteAt (0x050#16 + BitVec.ofNat 16 d.val) = Config.standardFont[d.val])

/-- The input reset, in any state, halted or not (R230; the spec's decisions D17, D22, D33): every register, the screen
and all of memory at their reset values, the font from the setting `FONT_GLYPHS`. -/
def Obligations.ResetInputGivesTheResetState : Prop :=
  ∀ (s : State) (rest : List HostInput), s.inputs = .reset :: rest →
    ∃ t, step s = .next t ∧ (∀ k, t.reg k = 0#8) ∧ t.i = 0#16 ∧ t.pc = 0x200#16 ∧
      (∀ j : Fin 16, t.stack[j.val] = 0#16) ∧ t.sp.val = 0 ∧ t.dt = 0#8 ∧ t.st = 0#8 ∧
      (∀ c r, t.fb.pixel c r = false) ∧ t.halt = .running ∧
      (∀ a : Word, inFont a = false → t.byteAt a = 0#8) ∧
      (∀ d : Fin 80, t.byteAt (0x050#16 + BitVec.ofNat 16 d.val) = s.config.fontGlyphs[d.val]) ∧
      t.config = s.config ∧ t.inputs = rest

/-- An accepted load (R232): the bytes stand at 0x200 and up, verbatim; every other byte of memory and the rest of the
machine are as before (a load of no byte too: the spec's decision D32; the field launch is the model's, log entry 7). -/
def Obligations.LoadPlacesTheBytesAtProgramBase : Prop :=
  ∀ (s : State) (bytes : List Byte) (rest : List HostInput), s.launch = .fresh → s.inputs = .load bytes :: rest →
    Memory.wf s.mem = true → bytes.length ≤ 3584 →
    ∃ t, step s = .next t ∧ t.loadResult = .ok ∧
      (∀ k (h : k < bytes.length), t.byteAt (0x200#16 + BitVec.ofNat 16 k) = bytes[k]) ∧
      (∀ c : Word, (maskAddr c < 0x200 ∨ 0x200 + bytes.length ≤ maskAddr c) → t.byteAt c = s.byteAt c) ∧
      t = { s with mem := t.mem, loadResult := .ok, launch := .launched, inputs := rest }

/-- A load of more than 3584 bytes answers `RomTooLarge` with the length (the table of 60_exceptions.md R200) and changes
no state of the machine (R205, 70_reset_and_hazards.md R233). That a load comes to a fresh machine only, and that a
rejected one leaves it fresh, is R234 (the spec's decision D21) as log entry 7 reads it. -/
def Obligations.TooLargeLoadChangesNothing : Prop :=
  ∀ (s : State) (bytes : List Byte) (rest : List HostInput), s.launch = .fresh → s.inputs = .load bytes :: rest →
    3584 < bytes.length →
    step s = .next { s with loadResult := .romTooLarge bytes.length, inputs := rest }

/-- A load after an accepted load, a cycle or a tick is refused (R234; the spec's decision D21; log entry 7). -/
def Obligations.LoadAfterLaunchIsRefused : Prop :=
  ∀ (s : State) (bytes : List Byte) (rest : List HostInput), s.launch = .launched → s.inputs = .load bytes :: rest →
    step s = .refused .loadAfterLaunch

/-- A halted machine has no cycle and no tick (60_exceptions.md R207, 45_timers.md R153; the spec's decision D14): the
step stops with the recorded condition (log entry 8). With no input listed the step is a cycle (log entry 2). -/
def Obligations.HaltedMachineHasNoCycleAndNoTick : Prop :=
  ∀ (s : State) (code : FatalCode) (addr : Word), s.halt = .halted code addr →
    (s.inputs = [] ∨ (∃ keys r rest, s.inputs = .cycle keys r :: rest) ∨ (∃ rest, s.inputs = .tick :: rest)) →
    step s = .fault (.halted code addr)

/-- Only reset leaves a fatal halt (60_exceptions.md R207), in every state where a fresh machine is the reset machine
(an invariant of its own: StepKeepsFreshIsReset). -/
def Obligations.OnlyResetLeavesAHalt : Prop :=
  ∀ s t : State, s.FreshIsReset → s.halt ≠ .running → step s = .next t →
    (∃ rest, s.inputs = .reset :: rest) ∧ t.halt = .running

/-! ## Invariants -/

/-- Every step, of whatever kind, keeps memory in its canonical form and, under `FONT_PROTECT = fault`, the font bytes
at their values: "written once at initialization and never mutated thereafter" (20_memory.md R55). -/
def Obligations.StepKeepsMemoryAndFont : Prop :=
  ∀ s t : State, s.Inv → step s = .next t → t.Inv

/-- The reset state has the invariant of StepKeepsMemoryAndFont. -/
def Obligations.ResetHasMemoryAndFontIntact : Prop := State.reset.Inv

/-- Every step keeps: a machine to which a load may still come is the reset machine (70_reset_and_hazards.md R234). -/
def Obligations.StepKeepsFreshIsReset : Prop :=
  ∀ s t : State, s.FreshIsReset → step s = .next t → t.FreshIsReset

/-- The reset state has the invariant of StepKeepsFreshIsReset. -/
def Obligations.ResetIsFresh : Prop := State.reset.FreshIsReset ∧ State.reset.launch = .fresh
end

