-- ==== Sys2Proof/Laws/Decode.lean ====
section
/-! SUPPORT. The fields of an assembled word, a word as the assembly of its fields, and the two byte orders. -/

namespace Sys2Proof

@[simp] theorem nibble_toFin (b : BitVec 4) : nibble b.toFin = b := rfl

@[simp] theorem toFin_nibble (k : Fin 16) : (nibble k).toFin = k := rfl

/-! ## Fields of an assembled word -/

@[simp] theorem fieldH_wordNnn (h : BitVec 4) (nnn : Addr12) : fieldH (wordNnn h nnn) = h := by
  apply BitVec.eq_of_getLsbD_eq
  intro i hi
  simp only [fieldH, wordNnn, BitVec.getLsbD_extractLsb', BitVec.getLsbD_append, hi, decide_true, Bool.true_and]
  simp [show ¬ (12 + i < 12) by omega, show 12 + i - 12 = i by omega]

@[simp] theorem fieldNnn_wordNnn (h : BitVec 4) (nnn : Addr12) : fieldNnn (wordNnn h nnn) = nnn := by
  apply BitVec.eq_of_getLsbD_eq
  intro i hi
  simp only [fieldNnn, wordNnn, BitVec.getLsbD_extractLsb', BitVec.getLsbD_append, hi, decide_true, Bool.true_and]
  simp [show i < 12 by omega]

@[simp] theorem fieldH_wordXKk (h : BitVec 4) (x : RegIdx) (kk : Byte) : fieldH (wordXKk h x kk) = h := by
  apply BitVec.eq_of_getLsbD_eq
  intro i hi
  simp only [fieldH, wordXKk, BitVec.getLsbD_extractLsb', BitVec.getLsbD_append, hi, decide_true, Bool.true_and]
  simp [show ¬ (12 + i < 8) by omega, show ¬ (12 + i - 8 < 4) by omega, show 12 + i - 8 - 4 = i by omega]

@[simp] theorem fieldX_wordXKk (h : BitVec 4) (x : RegIdx) (kk : Byte) : fieldX (wordXKk h x kk) = x := by
  have : (wordXKk h x kk).extractLsb' 8 4 = nibble x := by
    apply BitVec.eq_of_getLsbD_eq
    intro i hi
    simp only [wordXKk, BitVec.getLsbD_extractLsb', BitVec.getLsbD_append, hi, decide_true, Bool.true_and]
    simp [show ¬ (8 + i < 8) by omega, hi, show 8 + i - 8 = i by omega]
  rw [fieldX, this, toFin_nibble]

@[simp] theorem fieldKk_wordXKk (h : BitVec 4) (x : RegIdx) (kk : Byte) : fieldKk (wordXKk h x kk) = kk := by
  apply BitVec.eq_of_getLsbD_eq
  intro i hi
  simp only [fieldKk, wordXKk, BitVec.getLsbD_extractLsb', BitVec.getLsbD_append, hi, decide_true, Bool.true_and]
  simp [show i < 8 by omega]

@[simp] theorem fieldH_wordXYN (h : BitVec 4) (x y : RegIdx) (n : BitVec 4) : fieldH (wordXYN h x y n) = h := by
  apply BitVec.eq_of_getLsbD_eq
  intro i hi
  simp only [fieldH, wordXYN, BitVec.getLsbD_extractLsb', BitVec.getLsbD_append, hi, decide_true, Bool.true_and]
  simp [show ¬ (12 + i < 4) by omega, show ¬ (12 + i - 4 < 4) by omega, show ¬ (12 + i - 4 - 4 < 4) by omega, show 12 + i - 4 - 4 - 4 = i by omega]

@[simp] theorem fieldX_wordXYN (h : BitVec 4) (x y : RegIdx) (n : BitVec 4) : fieldX (wordXYN h x y n) = x := by
  have : (wordXYN h x y n).extractLsb' 8 4 = nibble x := by
    apply BitVec.eq_of_getLsbD_eq
    intro i hi
    simp only [wordXYN, BitVec.getLsbD_extractLsb', BitVec.getLsbD_append, hi, decide_true, Bool.true_and]
    simp [show ¬ (8 + i < 4) by omega, show ¬ (8 + i - 4 < 4) by omega, hi, show 8 + i - 4 - 4 = i by omega]
  rw [fieldX, this, toFin_nibble]

@[simp] theorem fieldY_wordXYN (h : BitVec 4) (x y : RegIdx) (n : BitVec 4) : fieldY (wordXYN h x y n) = y := by
  have : (wordXYN h x y n).extractLsb' 4 4 = nibble y := by
    apply BitVec.eq_of_getLsbD_eq
    intro i hi
    simp only [wordXYN, BitVec.getLsbD_extractLsb', BitVec.getLsbD_append, hi, decide_true, Bool.true_and]
    simp [show ¬ (4 + i < 4) by omega, hi, show 4 + i - 4 = i by omega]
  rw [fieldY, this, toFin_nibble]

@[simp] theorem fieldN_wordXYN (h : BitVec 4) (x y : RegIdx) (n : BitVec 4) : fieldN (wordXYN h x y n) = n := by
  apply BitVec.eq_of_getLsbD_eq
  intro i hi
  simp only [fieldN, wordXYN, BitVec.getLsbD_extractLsb', BitVec.getLsbD_append, hi, decide_true, Bool.true_and]
  simp [show i < 4 by omega]

@[simp] theorem fieldCount_wordXYN (h : BitVec 4) (x y : RegIdx) (n : BitVec 4) :
    fieldCount (wordXYN h x y n) = n.toFin := by
  have := fieldN_wordXYN h x y n
  rw [fieldN] at this
  rw [fieldCount, this]

/-! ## A word is the assembly of its fields -/

theorem wordNnn_fields (w : Word) : wordNnn (fieldH w) (fieldNnn w) = w := by
  apply BitVec.eq_of_getLsbD_eq
  intro i hi
  simp only [wordNnn, fieldH, fieldNnn, BitVec.getLsbD_append, BitVec.getLsbD_extractLsb']
  split
  · simp_all
  · next h => simp [show i - 12 < 4 by omega, show 12 + (i - 12) = i by omega]

theorem wordXKk_fields (w : Word) : wordXKk (fieldH w) (fieldX w) (fieldKk w) = w := by
  apply BitVec.eq_of_getLsbD_eq
  intro i hi
  simp only [wordXKk, fieldH, fieldX, fieldKk, nibble_toFin, BitVec.getLsbD_append, BitVec.getLsbD_extractLsb']
  split
  · simp_all
  · split
    · next h1 h2 => simp [h2, show 8 + (i - 8) = i by omega]
    · next h1 h2 => simp [show i - 8 - 4 < 4 by omega, show 12 + (i - 8 - 4) = i by omega]

theorem wordXYN_fields (w : Word) : wordXYN (fieldH w) (fieldX w) (fieldY w) (fieldN w) = w := by
  apply BitVec.eq_of_getLsbD_eq
  intro i hi
  simp only [wordXYN, fieldH, fieldX, fieldY, fieldN, nibble_toFin, BitVec.getLsbD_append, BitVec.getLsbD_extractLsb']
  split
  · simp_all
  · split
    · next h1 h2 => simp [h2, show 4 + (i - 4) = i by omega]
    · split
      · next h1 h2 h3 => simp [h3, show 8 + (i - 4 - 4) = i by omega]
      · next h1 h2 h3 => simp [show i - 4 - 4 - 4 < 4 by omega, show 12 + (i - 4 - 4 - 4) = i by omega]

/-- The low byte of a word is its y and n nibbles. -/
theorem fieldKk_eq_append (w : Word) : fieldKk w = nibble (fieldY w) ++ fieldN w := by
  apply BitVec.eq_of_getLsbD_eq
  intro i hi
  simp only [fieldKk, fieldY, fieldN, nibble_toFin, BitVec.getLsbD_append, BitVec.getLsbD_extractLsb']
  split
  · simp_all
  · next h => simp [hi, show i - 4 < 4 by omega, show 4 + (i - 4) = i by omega]

/-! ## Byte order -/

/-- Storing a word's bytes high byte first and fetching them gives the word back. -/
@[simp] theorem opcodeOfBytes_hi_lo (w : Word) : opcodeOfBytes (hiByte w) (loByte w) = w := by
  apply BitVec.eq_of_getLsbD_eq
  intro i hi
  simp only [opcodeOfBytes, hiByte, loByte, BitVec.getLsbD_append, BitVec.getLsbD_extractLsb']
  split
  · simp_all
  · next h => simp [show i - 8 < 8 by omega, show 8 + (i - 8) = i by omega]

@[simp] theorem hiByte_opcodeOfBytes (hi lo : Byte) : hiByte (opcodeOfBytes hi lo) = hi := by
  apply BitVec.eq_of_getLsbD_eq
  intro i h
  simp only [opcodeOfBytes, hiByte, BitVec.getLsbD_extractLsb', BitVec.getLsbD_append, h, decide_true, Bool.true_and]
  simp

@[simp] theorem loByte_opcodeOfBytes (hi lo : Byte) : loByte (opcodeOfBytes hi lo) = lo := by
  apply BitVec.eq_of_getLsbD_eq
  intro i h
  simp only [opcodeOfBytes, loByte, BitVec.getLsbD_extractLsb', BitVec.getLsbD_append, h, decide_true, Bool.true_and]
  simp [h]

/-- Fetching reads the value `hi * 256 + lo` (30_encoding.md R73). -/
theorem opcodeOfBytes_toNat (hi lo : Byte) : (opcodeOfBytes hi lo).toNat = hi.toNat * 256 + lo.toNat := by
  rw [opcodeOfBytes, BitVec.toNat_append, ← Nat.shiftLeft_add_eq_or_of_lt lo.isLt, Nat.shiftLeft_eq]

end Sys2Proof
end

