-- ==== Sys2Proof/Laws/Memory.lean ====
section
/-! SUPPORT. The laws of Memory: a read after a write, the canonical form is kept, and runs of bytes. -/

namespace Sys2Proof.Machine

/-! ## Addresses -/

theorem maskAddr_eq_mod (a : Word) : maskAddr a = a.toNat % 4096 := by
  rw [maskAddr, BitVec.toNat_and]
  exact Nat.and_two_pow_sub_one_eq_mod a.toNat 12

theorem maskAddr_lt (a : Word) : maskAddr a < 4096 := by
  rw [maskAddr_eq_mod]; omega

/-- The distance from a to c, in the 12-bit space, is 0 exactly when the two name one cell. -/
theorem maskAddr_sub_eq_zero (c a : Word) : maskAddr (c - a) = 0 ↔ maskAddr c = maskAddr a := by
  simp only [maskAddr_eq_mod, BitVec.toNat_sub]
  have := c.isLt; have := a.isLt
  omega

/-- Stepping a one on brings it one nearer to a cell that it does not name. -/
theorem maskAddr_sub_succ (c a : Word) :
    maskAddr (c - (a + 1#16)) = if maskAddr (c - a) = 0 then 4095 else maskAddr (c - a) - 1 := by
  simp only [maskAddr_eq_mod, BitVec.toNat_sub, BitVec.toNat_add, BitVec.toNat_ofNat]
  have := c.isLt; have := a.isLt
  split <;> omega

theorem maskAddr_add_sub (a : Word) (k : Nat) (hk : k < 4096) : maskAddr (a + BitVec.ofNat 16 k - a) = k := by
  simp only [maskAddr_eq_mod, BitVec.toNat_sub, BitVec.toNat_add, BitVec.toNat_ofNat]
  have := a.isLt
  omega

/-! ## One byte -/

theorem Memory.read_of_lt {m : Memory} {lo a : Nat} (hm : Memory.wfFrom lo m = true) (ha : a < lo) :
    Memory.read m a = Memory.unlisted a := by
  induction m generalizing lo with
  | nil => rfl
  | cons c m ih =>
    obtain ⟨k, b⟩ := c
    simp only [Memory.wfFrom, Bool.and_eq_true, decide_eq_true_eq] at hm
    obtain ⟨⟨⟨hk, -⟩, -⟩, hm⟩ := hm
    rw [Memory.read, if_neg (by omega), ih hm (by omega)]

theorem Memory.read_write_ne {m : Memory} {a c : Nat} {b : Byte} (h : c ≠ a) :
    Memory.read (Memory.write m a b) c = Memory.read m c := by
  induction m with
  | nil =>
    simp only [Memory.write]
    split
    · rfl
    · simp [Memory.read, h.symm]
  | cons e m ih =>
    obtain ⟨k, d⟩ := e
    simp only [Memory.write]
    split
    · split
      · rfl
      · simp [Memory.read, h.symm]
    · split
      · next hak =>
        subst hak
        split <;> simp [Memory.read, h.symm]
      · simp only [Memory.read]
        split
        · rfl
        · exact ih

theorem Memory.read_write_self {m : Memory} {lo a : Nat} {b : Byte} (hm : Memory.wfFrom lo m = true) :
    Memory.read (Memory.write m a b) a = b := by
  induction m generalizing lo with
  | nil =>
    simp only [Memory.write]
    split
    · next hb => simp [Memory.read, hb]
    · simp [Memory.read]
  | cons e m ih =>
    obtain ⟨k, d⟩ := e
    have hm' := hm
    simp only [Memory.wfFrom, Bool.and_eq_true, decide_eq_true_eq] at hm'
    obtain ⟨⟨⟨hk, -⟩, -⟩, hm'⟩ := hm'
    simp only [Memory.write]
    split
    · next hak =>
      split
      · next hb =>
        rw [Memory.read, if_neg (by omega), Memory.read_of_lt hm' (by omega), hb]
      · simp [Memory.read]
    · split
      · next hak =>
        split
        · next hb => rw [Memory.read_of_lt hm' (by omega), hb]
        · simp [Memory.read]
      · next h1 h2 =>
        rw [Memory.read, if_neg (by omega), ih hm']

theorem Memory.wfFrom_mono {m : Memory} {lo lo' : Nat} (h : lo' ≤ lo) (hm : Memory.wfFrom lo m = true) :
    Memory.wfFrom lo' m = true := by
  cases m with
  | nil => rfl
  | cons e m =>
    obtain ⟨k, d⟩ := e
    simp only [Memory.wfFrom, Bool.and_eq_true, decide_eq_true_eq] at hm ⊢
    exact ⟨⟨⟨by omega, hm.1.1.2⟩, hm.1.2⟩, hm.2⟩

theorem Memory.wfFrom_write {m : Memory} {lo a : Nat} {b : Byte} (hm : Memory.wfFrom lo m = true) (ha : lo ≤ a)
    (hs : a < 4096) : Memory.wfFrom lo (Memory.write m a b) = true := by
  induction m generalizing lo with
  | nil =>
    simp only [Memory.write]
    split
    · rfl
    · next hb => simp [Memory.wfFrom, ha, hs, hb]
  | cons e m ih =>
    obtain ⟨k, d⟩ := e
    have hm' := hm
    simp only [Memory.wfFrom, Bool.and_eq_true, decide_eq_true_eq] at hm'
    obtain ⟨⟨⟨hk, hk2⟩, hd⟩, hm'⟩ := hm'
    simp only [Memory.write]
    split
    · next hak =>
      split
      · exact hm
      · next hb =>
        simp only [Memory.wfFrom, Bool.and_eq_true, decide_eq_true_eq]
        exact ⟨⟨⟨ha, hs⟩, by simpa using hb⟩, ⟨⟨by omega, hk2⟩, hd⟩, hm'⟩
    · split
      · next hak =>
        subst hak
        split
        · exact Memory.wfFrom_mono (by omega) hm'
        · next hb =>
          simp only [Memory.wfFrom, Bool.and_eq_true, decide_eq_true_eq]
          exact ⟨⟨⟨ha, hs⟩, by simpa using hb⟩, hm'⟩
      · next h1 h2 =>
        simp only [Memory.wfFrom, Bool.and_eq_true, decide_eq_true_eq]
        exact ⟨⟨⟨hk, hk2⟩, hd⟩, ih hm' (by omega)⟩

/-- Two canonical memories that read alike everywhere are one list. -/
theorem Memory.eq_of_read_eq {m m' : Memory} {lo : Nat} (hm : Memory.wfFrom lo m = true)
    (hm' : Memory.wfFrom lo m' = true) (h : ∀ a, Memory.read m a = Memory.read m' a) : m = m' := by
  induction m generalizing lo m' with
  | nil =>
    cases m' with
    | nil => rfl
    | cons e m' =>
      obtain ⟨k, d⟩ := e
      simp only [Memory.wfFrom, Bool.and_eq_true, decide_eq_true_eq, bne_iff_ne] at hm'
      have := h k
      simp only [Memory.read, if_true] at this
      exact absurd this.symm hm'.1.2
  | cons e m ih =>
    obtain ⟨k, d⟩ := e
    have hm1 := hm
    simp only [Memory.wfFrom, Bool.and_eq_true, decide_eq_true_eq, bne_iff_ne] at hm1
    cases m' with
    | nil =>
      have := h k
      simp only [Memory.read, if_true] at this
      exact absurd this hm1.1.2
    | cons e' m' =>
      obtain ⟨k', d'⟩ := e'
      have hm2 := hm'
      simp only [Memory.wfFrom, Bool.and_eq_true, decide_eq_true_eq, bne_iff_ne] at hm2
      obtain hlt | heq | hgt := Nat.lt_trichotomy k k'
      · have := h k
        simp only [Memory.read, if_true] at this
        rw [if_neg (by omega), Memory.read_of_lt hm2.2 (by omega)] at this
        exact absurd this hm1.1.2
      · subst heq
        have hd := h k
        simp only [Memory.read, if_true] at hd
        subst hd
        rw [ih hm1.2 hm2.2]
        intro a
        by_cases ha : a < k + 1
        · rw [Memory.read_of_lt hm1.2 ha, Memory.read_of_lt hm2.2 ha]
        · have := h a
          simp only [Memory.read] at this
          rwa [if_neg (by omega), if_neg (by omega)] at this
      · have := h k'
        simp only [Memory.read, if_true] at this
        rw [if_neg (by omega), Memory.read_of_lt hm1.2 (by omega)] at this
        exact absurd this.symm hm2.1.2

/-! ## The masked primitives -/

/-- A read depends on the masked address alone (20_memory.md R52). -/
theorem memRead_congr (m : Memory) {a c : Word} (h : maskAddr a = maskAddr c) : memRead m a = memRead m c := by
  rw [memRead, memRead, h]

theorem memRead_memWrite_self {m : Memory} (hm : Memory.wf m = true) (a : Word) (b : Byte) :
    memRead (memWrite m a b) a = b :=
  Memory.read_write_self hm

theorem memRead_memWrite_ne (m : Memory) {a c : Word} (b : Byte) (h : maskAddr c ≠ maskAddr a) :
    memRead (memWrite m a b) c = memRead m c :=
  Memory.read_write_ne h

theorem memWrite_wf {m : Memory} (hm : Memory.wf m = true) (a : Word) (b : Byte) :
    Memory.wf (memWrite m a b) = true :=
  Memory.wfFrom_write hm (Nat.zero_le _) (maskAddr_lt a)

/-! ## Runs of bytes -/

theorem writeSeq_wf {m : Memory} (hm : Memory.wf m = true) (a : Word) (bs : List Byte) :
    Memory.wf (writeSeq m a bs) = true := by
  induction bs generalizing m a with
  | nil => exact hm
  | cons b bs ih => exact ih (memWrite_wf hm a b) (a + 1#16)

/-- A cell at a distance of the run's length or more is not written. -/
theorem memRead_writeSeq_outside (m : Memory) (a c : Word) (bs : List Byte) (hl : bs.length ≤ 4096)
    (h : bs.length ≤ maskAddr (c - a)) : memRead (writeSeq m a bs) c = memRead m c := by
  induction bs generalizing m a with
  | nil => rfl
  | cons b bs ih =>
    simp only [List.length_cons] at h hl
    have h0 : maskAddr (c - a) ≠ 0 := by omega
    have hs := maskAddr_sub_succ c a
    rw [if_neg h0] at hs
    rw [writeSeq, ih _ _ (by omega) (by show bs.length ≤ maskAddr (c - (a + 1#16)); omega),
      memRead_memWrite_ne _ _ (fun he => h0 ((maskAddr_sub_eq_zero c a).2 he))]

/-- The cell at distance d inside the run holds the run's byte d. -/
theorem memRead_writeSeq_inside {m : Memory} (hm : Memory.wf m = true) (a c : Word) (bs : List Byte)
    (hl : bs.length ≤ 4096) (h : maskAddr (c - a) < bs.length) :
    memRead (writeSeq m a bs) c = bs[maskAddr (c - a)] := by
  induction bs generalizing m a with
  | nil => simp at h
  | cons b bs ih =>
    simp only [List.length_cons] at h hl
    have hs := maskAddr_sub_succ c a
    by_cases h0 : maskAddr (c - a) = 0
    · rw [if_pos h0] at hs
      have he := (maskAddr_sub_eq_zero c a).1 h0
      have hout : bs.length ≤ maskAddr (c - (a + 1#16)) := by omega
      rw [writeSeq, memRead_writeSeq_outside _ _ _ _ (by omega) hout, memRead_congr _ he, memRead_memWrite_self hm]
      simp [h0]
    · rw [if_neg h0] at hs
      have hin : maskAddr (c - (a + 1#16)) < bs.length := by omega
      have := ih (memWrite_wf hm a b) (a + 1#16) (by omega) hin
      rw [writeSeq, this]
      obtain ⟨d, hd⟩ : ∃ d, maskAddr (c - a) = d + 1 := ⟨maskAddr (c - a) - 1, by omega⟩
      simp [hs, hd]

/-- The cell k on from the run's start holds the run's byte k. -/
theorem memRead_writeSeq_at {m : Memory} (hm : Memory.wf m = true) (a : Word) (bs : List Byte) (k : Nat)
    (hk : k < bs.length) (hl : bs.length ≤ 4096) : memRead (writeSeq m a bs) (a + BitVec.ofNat 16 k) = bs[k] := by
  have hs := maskAddr_add_sub a k (by omega)
  rw [memRead_writeSeq_inside hm a (a + BitVec.ofNat 16 k) bs hl (by omega)]
  simp only [hs]

@[simp] theorem readSeq_length (m : Memory) (a : Word) (n : Nat) : (readSeq m a n).length = n := by
  induction n generalizing a with
  | zero => rfl
  | succ n ih => simp [readSeq, ih]

theorem readSeq_getElem (m : Memory) (a : Word) (n k : Nat) (h : k < (readSeq m a n).length) :
    (readSeq m a n)[k] = memRead m (a + BitVec.ofNat 16 k) := by
  induction n generalizing a k with
  | zero => simp [readSeq] at h
  | succ n ih =>
    cases k with
    | zero => simp [readSeq]
    | succ k =>
      simp only [readSeq, List.getElem_cons_succ]
      rw [ih]
      apply memRead_congr
      congr 1
      apply BitVec.eq_of_toNat_eq
      simp only [BitVec.toNat_add, BitVec.toNat_ofNat]
      omega

/-! ## The font range -/

theorem inFont_iff (a : Word) : inFont a = true ↔ 0x050 ≤ maskAddr a ∧ maskAddr a ≤ 0x09F := by
  simp [inFont]

/-- Some address of the run lies in the font exactly when one at a distance below n does. -/
theorem touchesFont_iff (a : Word) (n : Nat) :
    touchesFont a n = true ↔ ∃ k < n, inFont (a + BitVec.ofNat 16 k) = true := by
  induction n generalizing a with
  | zero => simp [touchesFont]
  | succ n ih =>
    have hstep : ∀ k : Nat, a + 1#16 + BitVec.ofNat 16 k = a + BitVec.ofNat 16 (k + 1) := by
      intro k
      apply BitVec.eq_of_toNat_eq
      simp only [BitVec.toNat_add, BitVec.toNat_ofNat]
      omega
    simp only [touchesFont, Bool.or_eq_true, ih, hstep]
    constructor
    · rintro (h | ⟨k, hk, h⟩)
      · exact ⟨0, by omega, by simpa using h⟩
      · exact ⟨k + 1, by omega, h⟩
    · rintro ⟨k, hk, h⟩
      cases k with
      | zero => exact .inl (by simpa using h)
      | succ k => exact .inr ⟨k, by omega, h⟩

end Sys2Proof.Machine
end

