-- ==== Sys2Proof/Laws/State.lean ====
section
/-! SUPPORT. One lemma per field per named update of the state: what the update puts there, or that it leaves the field
alone. Later proofs cite these and unfold no record update. -/

namespace Sys2Proof.Machine

variable (s : State)

/-! ### `setReg` -/

@[simp] theorem State.setReg_v (k : RegIdx) (b : Byte) : (s.setReg k b).v = s.v.set k.val b := rfl
@[simp] theorem State.setReg_i (k : RegIdx) (b : Byte) : (s.setReg k b).i = s.i := rfl
@[simp] theorem State.setReg_pc (k : RegIdx) (b : Byte) : (s.setReg k b).pc = s.pc := rfl
@[simp] theorem State.setReg_stack (k : RegIdx) (b : Byte) : (s.setReg k b).stack = s.stack := rfl
@[simp] theorem State.setReg_sp (k : RegIdx) (b : Byte) : (s.setReg k b).sp = s.sp := rfl
@[simp] theorem State.setReg_dt (k : RegIdx) (b : Byte) : (s.setReg k b).dt = s.dt := rfl
@[simp] theorem State.setReg_st (k : RegIdx) (b : Byte) : (s.setReg k b).st = s.st := rfl
@[simp] theorem State.setReg_mem (k : RegIdx) (b : Byte) : (s.setReg k b).mem = s.mem := rfl
@[simp] theorem State.setReg_fb (k : RegIdx) (b : Byte) : (s.setReg k b).fb = s.fb := rfl
@[simp] theorem State.setReg_halt (k : RegIdx) (b : Byte) : (s.setReg k b).halt = s.halt := rfl
@[simp] theorem State.setReg_keys (k : RegIdx) (b : Byte) : (s.setReg k b).keys = s.keys := rfl
@[simp] theorem State.setReg_rand (k : RegIdx) (b : Byte) : (s.setReg k b).rand = s.rand := rfl
@[simp] theorem State.setReg_event (k : RegIdx) (b : Byte) : (s.setReg k b).event = s.event := rfl
@[simp] theorem State.setReg_loadResult (k : RegIdx) (b : Byte) : (s.setReg k b).loadResult = s.loadResult := rfl
@[simp] theorem State.setReg_launch (k : RegIdx) (b : Byte) : (s.setReg k b).launch = s.launch := rfl
@[simp] theorem State.setReg_inputs (k : RegIdx) (b : Byte) : (s.setReg k b).inputs = s.inputs := rfl
@[simp] theorem State.setReg_draws (k : RegIdx) (b : Byte) : (s.setReg k b).draws = s.draws := rfl
@[simp] theorem State.setReg_config (k : RegIdx) (b : Byte) : (s.setReg k b).config = s.config := rfl

/-! ### `setI` -/

@[simp] theorem State.setI_v (a : Word) : (s.setI a).v = s.v := rfl
@[simp] theorem State.setI_i (a : Word) : (s.setI a).i = a := rfl
@[simp] theorem State.setI_pc (a : Word) : (s.setI a).pc = s.pc := rfl
@[simp] theorem State.setI_stack (a : Word) : (s.setI a).stack = s.stack := rfl
@[simp] theorem State.setI_sp (a : Word) : (s.setI a).sp = s.sp := rfl
@[simp] theorem State.setI_dt (a : Word) : (s.setI a).dt = s.dt := rfl
@[simp] theorem State.setI_st (a : Word) : (s.setI a).st = s.st := rfl
@[simp] theorem State.setI_mem (a : Word) : (s.setI a).mem = s.mem := rfl
@[simp] theorem State.setI_fb (a : Word) : (s.setI a).fb = s.fb := rfl
@[simp] theorem State.setI_halt (a : Word) : (s.setI a).halt = s.halt := rfl
@[simp] theorem State.setI_keys (a : Word) : (s.setI a).keys = s.keys := rfl
@[simp] theorem State.setI_rand (a : Word) : (s.setI a).rand = s.rand := rfl
@[simp] theorem State.setI_event (a : Word) : (s.setI a).event = s.event := rfl
@[simp] theorem State.setI_loadResult (a : Word) : (s.setI a).loadResult = s.loadResult := rfl
@[simp] theorem State.setI_launch (a : Word) : (s.setI a).launch = s.launch := rfl
@[simp] theorem State.setI_inputs (a : Word) : (s.setI a).inputs = s.inputs := rfl
@[simp] theorem State.setI_draws (a : Word) : (s.setI a).draws = s.draws := rfl
@[simp] theorem State.setI_config (a : Word) : (s.setI a).config = s.config := rfl

/-! ### `setPc` -/

@[simp] theorem State.setPc_v (a : Word) : (s.setPc a).v = s.v := rfl
@[simp] theorem State.setPc_i (a : Word) : (s.setPc a).i = s.i := rfl
@[simp] theorem State.setPc_pc (a : Word) : (s.setPc a).pc = a := rfl
@[simp] theorem State.setPc_stack (a : Word) : (s.setPc a).stack = s.stack := rfl
@[simp] theorem State.setPc_sp (a : Word) : (s.setPc a).sp = s.sp := rfl
@[simp] theorem State.setPc_dt (a : Word) : (s.setPc a).dt = s.dt := rfl
@[simp] theorem State.setPc_st (a : Word) : (s.setPc a).st = s.st := rfl
@[simp] theorem State.setPc_mem (a : Word) : (s.setPc a).mem = s.mem := rfl
@[simp] theorem State.setPc_fb (a : Word) : (s.setPc a).fb = s.fb := rfl
@[simp] theorem State.setPc_halt (a : Word) : (s.setPc a).halt = s.halt := rfl
@[simp] theorem State.setPc_keys (a : Word) : (s.setPc a).keys = s.keys := rfl
@[simp] theorem State.setPc_rand (a : Word) : (s.setPc a).rand = s.rand := rfl
@[simp] theorem State.setPc_event (a : Word) : (s.setPc a).event = s.event := rfl
@[simp] theorem State.setPc_loadResult (a : Word) : (s.setPc a).loadResult = s.loadResult := rfl
@[simp] theorem State.setPc_launch (a : Word) : (s.setPc a).launch = s.launch := rfl
@[simp] theorem State.setPc_inputs (a : Word) : (s.setPc a).inputs = s.inputs := rfl
@[simp] theorem State.setPc_draws (a : Word) : (s.setPc a).draws = s.draws := rfl
@[simp] theorem State.setPc_config (a : Word) : (s.setPc a).config = s.config := rfl

/-! ### `setDt` -/

@[simp] theorem State.setDt_v (b : Byte) : (s.setDt b).v = s.v := rfl
@[simp] theorem State.setDt_i (b : Byte) : (s.setDt b).i = s.i := rfl
@[simp] theorem State.setDt_pc (b : Byte) : (s.setDt b).pc = s.pc := rfl
@[simp] theorem State.setDt_stack (b : Byte) : (s.setDt b).stack = s.stack := rfl
@[simp] theorem State.setDt_sp (b : Byte) : (s.setDt b).sp = s.sp := rfl
@[simp] theorem State.setDt_dt (b : Byte) : (s.setDt b).dt = b := rfl
@[simp] theorem State.setDt_st (b : Byte) : (s.setDt b).st = s.st := rfl
@[simp] theorem State.setDt_mem (b : Byte) : (s.setDt b).mem = s.mem := rfl
@[simp] theorem State.setDt_fb (b : Byte) : (s.setDt b).fb = s.fb := rfl
@[simp] theorem State.setDt_halt (b : Byte) : (s.setDt b).halt = s.halt := rfl
@[simp] theorem State.setDt_keys (b : Byte) : (s.setDt b).keys = s.keys := rfl
@[simp] theorem State.setDt_rand (b : Byte) : (s.setDt b).rand = s.rand := rfl
@[simp] theorem State.setDt_event (b : Byte) : (s.setDt b).event = s.event := rfl
@[simp] theorem State.setDt_loadResult (b : Byte) : (s.setDt b).loadResult = s.loadResult := rfl
@[simp] theorem State.setDt_launch (b : Byte) : (s.setDt b).launch = s.launch := rfl
@[simp] theorem State.setDt_inputs (b : Byte) : (s.setDt b).inputs = s.inputs := rfl
@[simp] theorem State.setDt_draws (b : Byte) : (s.setDt b).draws = s.draws := rfl
@[simp] theorem State.setDt_config (b : Byte) : (s.setDt b).config = s.config := rfl

/-! ### `setSt` -/

@[simp] theorem State.setSt_v (b : Byte) : (s.setSt b).v = s.v := rfl
@[simp] theorem State.setSt_i (b : Byte) : (s.setSt b).i = s.i := rfl
@[simp] theorem State.setSt_pc (b : Byte) : (s.setSt b).pc = s.pc := rfl
@[simp] theorem State.setSt_stack (b : Byte) : (s.setSt b).stack = s.stack := rfl
@[simp] theorem State.setSt_sp (b : Byte) : (s.setSt b).sp = s.sp := rfl
@[simp] theorem State.setSt_dt (b : Byte) : (s.setSt b).dt = s.dt := rfl
@[simp] theorem State.setSt_st (b : Byte) : (s.setSt b).st = b := rfl
@[simp] theorem State.setSt_mem (b : Byte) : (s.setSt b).mem = s.mem := rfl
@[simp] theorem State.setSt_fb (b : Byte) : (s.setSt b).fb = s.fb := rfl
@[simp] theorem State.setSt_halt (b : Byte) : (s.setSt b).halt = s.halt := rfl
@[simp] theorem State.setSt_keys (b : Byte) : (s.setSt b).keys = s.keys := rfl
@[simp] theorem State.setSt_rand (b : Byte) : (s.setSt b).rand = s.rand := rfl
@[simp] theorem State.setSt_event (b : Byte) : (s.setSt b).event = s.event := rfl
@[simp] theorem State.setSt_loadResult (b : Byte) : (s.setSt b).loadResult = s.loadResult := rfl
@[simp] theorem State.setSt_launch (b : Byte) : (s.setSt b).launch = s.launch := rfl
@[simp] theorem State.setSt_inputs (b : Byte) : (s.setSt b).inputs = s.inputs := rfl
@[simp] theorem State.setSt_draws (b : Byte) : (s.setSt b).draws = s.draws := rfl
@[simp] theorem State.setSt_config (b : Byte) : (s.setSt b).config = s.config := rfl

/-! ### `setFb` -/

@[simp] theorem State.setFb_v (f : Framebuffer) : (s.setFb f).v = s.v := rfl
@[simp] theorem State.setFb_i (f : Framebuffer) : (s.setFb f).i = s.i := rfl
@[simp] theorem State.setFb_pc (f : Framebuffer) : (s.setFb f).pc = s.pc := rfl
@[simp] theorem State.setFb_stack (f : Framebuffer) : (s.setFb f).stack = s.stack := rfl
@[simp] theorem State.setFb_sp (f : Framebuffer) : (s.setFb f).sp = s.sp := rfl
@[simp] theorem State.setFb_dt (f : Framebuffer) : (s.setFb f).dt = s.dt := rfl
@[simp] theorem State.setFb_st (f : Framebuffer) : (s.setFb f).st = s.st := rfl
@[simp] theorem State.setFb_mem (f : Framebuffer) : (s.setFb f).mem = s.mem := rfl
@[simp] theorem State.setFb_fb (f : Framebuffer) : (s.setFb f).fb = f := rfl
@[simp] theorem State.setFb_halt (f : Framebuffer) : (s.setFb f).halt = s.halt := rfl
@[simp] theorem State.setFb_keys (f : Framebuffer) : (s.setFb f).keys = s.keys := rfl
@[simp] theorem State.setFb_rand (f : Framebuffer) : (s.setFb f).rand = s.rand := rfl
@[simp] theorem State.setFb_event (f : Framebuffer) : (s.setFb f).event = s.event := rfl
@[simp] theorem State.setFb_loadResult (f : Framebuffer) : (s.setFb f).loadResult = s.loadResult := rfl
@[simp] theorem State.setFb_launch (f : Framebuffer) : (s.setFb f).launch = s.launch := rfl
@[simp] theorem State.setFb_inputs (f : Framebuffer) : (s.setFb f).inputs = s.inputs := rfl
@[simp] theorem State.setFb_draws (f : Framebuffer) : (s.setFb f).draws = s.draws := rfl
@[simp] theorem State.setFb_config (f : Framebuffer) : (s.setFb f).config = s.config := rfl

/-! ### `setMem` -/

@[simp] theorem State.setMem_v (m : Memory) : (s.setMem m).v = s.v := rfl
@[simp] theorem State.setMem_i (m : Memory) : (s.setMem m).i = s.i := rfl
@[simp] theorem State.setMem_pc (m : Memory) : (s.setMem m).pc = s.pc := rfl
@[simp] theorem State.setMem_stack (m : Memory) : (s.setMem m).stack = s.stack := rfl
@[simp] theorem State.setMem_sp (m : Memory) : (s.setMem m).sp = s.sp := rfl
@[simp] theorem State.setMem_dt (m : Memory) : (s.setMem m).dt = s.dt := rfl
@[simp] theorem State.setMem_st (m : Memory) : (s.setMem m).st = s.st := rfl
@[simp] theorem State.setMem_mem (m : Memory) : (s.setMem m).mem = m := rfl
@[simp] theorem State.setMem_fb (m : Memory) : (s.setMem m).fb = s.fb := rfl
@[simp] theorem State.setMem_halt (m : Memory) : (s.setMem m).halt = s.halt := rfl
@[simp] theorem State.setMem_keys (m : Memory) : (s.setMem m).keys = s.keys := rfl
@[simp] theorem State.setMem_rand (m : Memory) : (s.setMem m).rand = s.rand := rfl
@[simp] theorem State.setMem_event (m : Memory) : (s.setMem m).event = s.event := rfl
@[simp] theorem State.setMem_loadResult (m : Memory) : (s.setMem m).loadResult = s.loadResult := rfl
@[simp] theorem State.setMem_launch (m : Memory) : (s.setMem m).launch = s.launch := rfl
@[simp] theorem State.setMem_inputs (m : Memory) : (s.setMem m).inputs = s.inputs := rfl
@[simp] theorem State.setMem_draws (m : Memory) : (s.setMem m).draws = s.draws := rfl
@[simp] theorem State.setMem_config (m : Memory) : (s.setMem m).config = s.config := rfl

/-! ### `raiseFatal` -/

@[simp] theorem State.raiseFatal_v (c : FatalCode) : (s.raiseFatal c).v = s.v := rfl
@[simp] theorem State.raiseFatal_i (c : FatalCode) : (s.raiseFatal c).i = s.i := rfl
@[simp] theorem State.raiseFatal_pc (c : FatalCode) : (s.raiseFatal c).pc = s.pc := rfl
@[simp] theorem State.raiseFatal_stack (c : FatalCode) : (s.raiseFatal c).stack = s.stack := rfl
@[simp] theorem State.raiseFatal_sp (c : FatalCode) : (s.raiseFatal c).sp = s.sp := rfl
@[simp] theorem State.raiseFatal_dt (c : FatalCode) : (s.raiseFatal c).dt = s.dt := rfl
@[simp] theorem State.raiseFatal_st (c : FatalCode) : (s.raiseFatal c).st = s.st := rfl
@[simp] theorem State.raiseFatal_mem (c : FatalCode) : (s.raiseFatal c).mem = s.mem := rfl
@[simp] theorem State.raiseFatal_fb (c : FatalCode) : (s.raiseFatal c).fb = s.fb := rfl
@[simp] theorem State.raiseFatal_halt (c : FatalCode) : (s.raiseFatal c).halt = .halted c s.pc0 := rfl
@[simp] theorem State.raiseFatal_keys (c : FatalCode) : (s.raiseFatal c).keys = s.keys := rfl
@[simp] theorem State.raiseFatal_rand (c : FatalCode) : (s.raiseFatal c).rand = s.rand := rfl
@[simp] theorem State.raiseFatal_event (c : FatalCode) : (s.raiseFatal c).event = .fatal c s.pc0 := rfl
@[simp] theorem State.raiseFatal_loadResult (c : FatalCode) : (s.raiseFatal c).loadResult = s.loadResult := rfl
@[simp] theorem State.raiseFatal_launch (c : FatalCode) : (s.raiseFatal c).launch = s.launch := rfl
@[simp] theorem State.raiseFatal_inputs (c : FatalCode) : (s.raiseFatal c).inputs = s.inputs := rfl
@[simp] theorem State.raiseFatal_draws (c : FatalCode) : (s.raiseFatal c).draws = s.draws := rfl
@[simp] theorem State.raiseFatal_config (c : FatalCode) : (s.raiseFatal c).config = s.config := rfl

/-! ### `reportUnknown` -/

@[simp] theorem State.reportUnknown_v (op : Word) : (s.reportUnknown op).v = s.v := rfl
@[simp] theorem State.reportUnknown_i (op : Word) : (s.reportUnknown op).i = s.i := rfl
@[simp] theorem State.reportUnknown_pc (op : Word) : (s.reportUnknown op).pc = s.pc := rfl
@[simp] theorem State.reportUnknown_stack (op : Word) : (s.reportUnknown op).stack = s.stack := rfl
@[simp] theorem State.reportUnknown_sp (op : Word) : (s.reportUnknown op).sp = s.sp := rfl
@[simp] theorem State.reportUnknown_dt (op : Word) : (s.reportUnknown op).dt = s.dt := rfl
@[simp] theorem State.reportUnknown_st (op : Word) : (s.reportUnknown op).st = s.st := rfl
@[simp] theorem State.reportUnknown_mem (op : Word) : (s.reportUnknown op).mem = s.mem := rfl
@[simp] theorem State.reportUnknown_fb (op : Word) : (s.reportUnknown op).fb = s.fb := rfl
@[simp] theorem State.reportUnknown_halt (op : Word) : (s.reportUnknown op).halt = s.halt := rfl
@[simp] theorem State.reportUnknown_keys (op : Word) : (s.reportUnknown op).keys = s.keys := rfl
@[simp] theorem State.reportUnknown_rand (op : Word) : (s.reportUnknown op).rand = s.rand := rfl
@[simp] theorem State.reportUnknown_event (op : Word) : (s.reportUnknown op).event = .unknownOpcode op s.pc0 := rfl
@[simp] theorem State.reportUnknown_loadResult (op : Word) : (s.reportUnknown op).loadResult = s.loadResult := rfl
@[simp] theorem State.reportUnknown_launch (op : Word) : (s.reportUnknown op).launch = s.launch := rfl
@[simp] theorem State.reportUnknown_inputs (op : Word) : (s.reportUnknown op).inputs = s.inputs := rfl
@[simp] theorem State.reportUnknown_draws (op : Word) : (s.reportUnknown op).draws = s.draws := rfl
@[simp] theorem State.reportUnknown_config (op : Word) : (s.reportUnknown op).config = s.config := rfl

/-! ### `latch` -/

@[simp] theorem State.latch_v (keys : BitVec 16) (r : Byte) : (s.latch keys r).v = s.v := rfl
@[simp] theorem State.latch_i (keys : BitVec 16) (r : Byte) : (s.latch keys r).i = s.i := rfl
@[simp] theorem State.latch_pc (keys : BitVec 16) (r : Byte) : (s.latch keys r).pc = s.pc := rfl
@[simp] theorem State.latch_stack (keys : BitVec 16) (r : Byte) : (s.latch keys r).stack = s.stack := rfl
@[simp] theorem State.latch_sp (keys : BitVec 16) (r : Byte) : (s.latch keys r).sp = s.sp := rfl
@[simp] theorem State.latch_dt (keys : BitVec 16) (r : Byte) : (s.latch keys r).dt = s.dt := rfl
@[simp] theorem State.latch_st (keys : BitVec 16) (r : Byte) : (s.latch keys r).st = s.st := rfl
@[simp] theorem State.latch_mem (keys : BitVec 16) (r : Byte) : (s.latch keys r).mem = s.mem := rfl
@[simp] theorem State.latch_fb (keys : BitVec 16) (r : Byte) : (s.latch keys r).fb = s.fb := rfl
@[simp] theorem State.latch_halt (keys : BitVec 16) (r : Byte) : (s.latch keys r).halt = s.halt := rfl
@[simp] theorem State.latch_keys (keys : BitVec 16) (r : Byte) : (s.latch keys r).keys = keys := rfl
@[simp] theorem State.latch_rand (keys : BitVec 16) (r : Byte) : (s.latch keys r).rand = r := rfl
@[simp] theorem State.latch_event (keys : BitVec 16) (r : Byte) : (s.latch keys r).event = s.event := rfl
@[simp] theorem State.latch_loadResult (keys : BitVec 16) (r : Byte) : (s.latch keys r).loadResult = s.loadResult := rfl
@[simp] theorem State.latch_launch (keys : BitVec 16) (r : Byte) : (s.latch keys r).launch = s.launch := rfl
@[simp] theorem State.latch_inputs (keys : BitVec 16) (r : Byte) : (s.latch keys r).inputs = s.inputs := rfl
@[simp] theorem State.latch_draws (keys : BitVec 16) (r : Byte) : (s.latch keys r).draws = s.draws := rfl
@[simp] theorem State.latch_config (keys : BitVec 16) (r : Byte) : (s.latch keys r).config = s.config := rfl

/-! ### `advance` -/

@[simp] theorem State.advance_v : (s.advance).v = s.v := rfl
@[simp] theorem State.advance_i : (s.advance).i = s.i := rfl
@[simp] theorem State.advance_pc : (s.advance).pc = s.pc + 2#16 := rfl
@[simp] theorem State.advance_stack : (s.advance).stack = s.stack := rfl
@[simp] theorem State.advance_sp : (s.advance).sp = s.sp := rfl
@[simp] theorem State.advance_dt : (s.advance).dt = s.dt := rfl
@[simp] theorem State.advance_st : (s.advance).st = s.st := rfl
@[simp] theorem State.advance_mem : (s.advance).mem = s.mem := rfl
@[simp] theorem State.advance_fb : (s.advance).fb = s.fb := rfl
@[simp] theorem State.advance_halt : (s.advance).halt = s.halt := rfl
@[simp] theorem State.advance_keys : (s.advance).keys = s.keys := rfl
@[simp] theorem State.advance_rand : (s.advance).rand = s.rand := rfl
@[simp] theorem State.advance_event : (s.advance).event = .ok := rfl
@[simp] theorem State.advance_loadResult : (s.advance).loadResult = s.loadResult := rfl
@[simp] theorem State.advance_launch : (s.advance).launch = .launched := rfl
@[simp] theorem State.advance_inputs : (s.advance).inputs = s.inputs := rfl
@[simp] theorem State.advance_draws : (s.advance).draws = s.draws := rfl
@[simp] theorem State.advance_config : (s.advance).config = s.config := rfl

/-! ### `restart` -/

@[simp] theorem State.restart_v : (s.restart).v = Vector.replicate 16 0 := rfl
@[simp] theorem State.restart_i : (s.restart).i = 0 := rfl
@[simp] theorem State.restart_pc : (s.restart).pc = Config.progBase := rfl
@[simp] theorem State.restart_stack : (s.restart).stack = Vector.replicate 16 0 := rfl
@[simp] theorem State.restart_sp : (s.restart).sp = 0 := rfl
@[simp] theorem State.restart_dt : (s.restart).dt = 0 := rfl
@[simp] theorem State.restart_st : (s.restart).st = 0 := rfl
@[simp] theorem State.restart_mem : (s.restart).mem = Memory.withFont s.config.fontGlyphs := rfl
@[simp] theorem State.restart_fb : (s.restart).fb = Framebuffer.clear := rfl
@[simp] theorem State.restart_halt : (s.restart).halt = .running := rfl
@[simp] theorem State.restart_keys : (s.restart).keys = 0 := rfl
@[simp] theorem State.restart_rand : (s.restart).rand = 0 := rfl
@[simp] theorem State.restart_event : (s.restart).event = .ok := rfl
@[simp] theorem State.restart_loadResult : (s.restart).loadResult = .ok := rfl
@[simp] theorem State.restart_launch : (s.restart).launch = .fresh := rfl
@[simp] theorem State.restart_inputs : (s.restart).inputs = s.inputs := rfl
@[simp] theorem State.restart_draws : (s.restart).draws = s.draws := rfl
@[simp] theorem State.restart_config : (s.restart).config = s.config := rfl

/-! ### `skipIf`: the fields it never changes -/

@[simp] theorem State.skipIf_v (p : Bool) : (s.skipIf p).v = s.v := by
  unfold State.skipIf; split <;> rfl
@[simp] theorem State.skipIf_i (p : Bool) : (s.skipIf p).i = s.i := by
  unfold State.skipIf; split <;> rfl
@[simp] theorem State.skipIf_stack (p : Bool) : (s.skipIf p).stack = s.stack := by
  unfold State.skipIf; split <;> rfl
@[simp] theorem State.skipIf_sp (p : Bool) : (s.skipIf p).sp = s.sp := by
  unfold State.skipIf; split <;> rfl
@[simp] theorem State.skipIf_dt (p : Bool) : (s.skipIf p).dt = s.dt := by
  unfold State.skipIf; split <;> rfl
@[simp] theorem State.skipIf_st (p : Bool) : (s.skipIf p).st = s.st := by
  unfold State.skipIf; split <;> rfl
@[simp] theorem State.skipIf_mem (p : Bool) : (s.skipIf p).mem = s.mem := by
  unfold State.skipIf; split <;> rfl
@[simp] theorem State.skipIf_fb (p : Bool) : (s.skipIf p).fb = s.fb := by
  unfold State.skipIf; split <;> rfl
@[simp] theorem State.skipIf_halt (p : Bool) : (s.skipIf p).halt = s.halt := by
  unfold State.skipIf; split <;> rfl
@[simp] theorem State.skipIf_keys (p : Bool) : (s.skipIf p).keys = s.keys := by
  unfold State.skipIf; split <;> rfl
@[simp] theorem State.skipIf_rand (p : Bool) : (s.skipIf p).rand = s.rand := by
  unfold State.skipIf; split <;> rfl
@[simp] theorem State.skipIf_event (p : Bool) : (s.skipIf p).event = s.event := by
  unfold State.skipIf; split <;> rfl
@[simp] theorem State.skipIf_loadResult (p : Bool) : (s.skipIf p).loadResult = s.loadResult := by
  unfold State.skipIf; split <;> rfl
@[simp] theorem State.skipIf_launch (p : Bool) : (s.skipIf p).launch = s.launch := by
  unfold State.skipIf; split <;> rfl
@[simp] theorem State.skipIf_inputs (p : Bool) : (s.skipIf p).inputs = s.inputs := by
  unfold State.skipIf; split <;> rfl
@[simp] theorem State.skipIf_draws (p : Bool) : (s.skipIf p).draws = s.draws := by
  unfold State.skipIf; split <;> rfl
@[simp] theorem State.skipIf_config (p : Bool) : (s.skipIf p).config = s.config := by
  unfold State.skipIf; split <;> rfl

/-! ### `callTo`: the fields it never changes -/

@[simp] theorem State.callTo_v (a : Word) : (s.callTo a).v = s.v := by
  unfold State.callTo; split <;> rfl
@[simp] theorem State.callTo_i (a : Word) : (s.callTo a).i = s.i := by
  unfold State.callTo; split <;> rfl
@[simp] theorem State.callTo_dt (a : Word) : (s.callTo a).dt = s.dt := by
  unfold State.callTo; split <;> rfl
@[simp] theorem State.callTo_st (a : Word) : (s.callTo a).st = s.st := by
  unfold State.callTo; split <;> rfl
@[simp] theorem State.callTo_mem (a : Word) : (s.callTo a).mem = s.mem := by
  unfold State.callTo; split <;> rfl
@[simp] theorem State.callTo_fb (a : Word) : (s.callTo a).fb = s.fb := by
  unfold State.callTo; split <;> rfl
@[simp] theorem State.callTo_keys (a : Word) : (s.callTo a).keys = s.keys := by
  unfold State.callTo; split <;> rfl
@[simp] theorem State.callTo_rand (a : Word) : (s.callTo a).rand = s.rand := by
  unfold State.callTo; split <;> rfl
@[simp] theorem State.callTo_loadResult (a : Word) : (s.callTo a).loadResult = s.loadResult := by
  unfold State.callTo; split <;> rfl
@[simp] theorem State.callTo_launch (a : Word) : (s.callTo a).launch = s.launch := by
  unfold State.callTo; split <;> rfl
@[simp] theorem State.callTo_inputs (a : Word) : (s.callTo a).inputs = s.inputs := by
  unfold State.callTo; split <;> rfl
@[simp] theorem State.callTo_draws (a : Word) : (s.callTo a).draws = s.draws := by
  unfold State.callTo; split <;> rfl
@[simp] theorem State.callTo_config (a : Word) : (s.callTo a).config = s.config := by
  unfold State.callTo; split <;> rfl

/-! ### `returnFromCall`: the fields it never changes -/

@[simp] theorem State.returnFromCall_v : (s.returnFromCall).v = s.v := by
  unfold State.returnFromCall; split <;> rfl
@[simp] theorem State.returnFromCall_i : (s.returnFromCall).i = s.i := by
  unfold State.returnFromCall; split <;> rfl
@[simp] theorem State.returnFromCall_stack : (s.returnFromCall).stack = s.stack := by
  unfold State.returnFromCall; split <;> rfl
@[simp] theorem State.returnFromCall_dt : (s.returnFromCall).dt = s.dt := by
  unfold State.returnFromCall; split <;> rfl
@[simp] theorem State.returnFromCall_st : (s.returnFromCall).st = s.st := by
  unfold State.returnFromCall; split <;> rfl
@[simp] theorem State.returnFromCall_mem : (s.returnFromCall).mem = s.mem := by
  unfold State.returnFromCall; split <;> rfl
@[simp] theorem State.returnFromCall_fb : (s.returnFromCall).fb = s.fb := by
  unfold State.returnFromCall; split <;> rfl
@[simp] theorem State.returnFromCall_keys : (s.returnFromCall).keys = s.keys := by
  unfold State.returnFromCall; split <;> rfl
@[simp] theorem State.returnFromCall_rand : (s.returnFromCall).rand = s.rand := by
  unfold State.returnFromCall; split <;> rfl
@[simp] theorem State.returnFromCall_loadResult : (s.returnFromCall).loadResult = s.loadResult := by
  unfold State.returnFromCall; split <;> rfl
@[simp] theorem State.returnFromCall_launch : (s.returnFromCall).launch = s.launch := by
  unfold State.returnFromCall; split <;> rfl
@[simp] theorem State.returnFromCall_inputs : (s.returnFromCall).inputs = s.inputs := by
  unfold State.returnFromCall; split <;> rfl
@[simp] theorem State.returnFromCall_draws : (s.returnFromCall).draws = s.draws := by
  unfold State.returnFromCall; split <;> rfl
@[simp] theorem State.returnFromCall_config : (s.returnFromCall).config = s.config := by
  unfold State.returnFromCall; split <;> rfl

/-! ### `storeBytes`: the fields it never changes -/

@[simp] theorem State.storeBytes_v (a : Word) (bs : List Byte) : (s.storeBytes a bs).v = s.v := by
  unfold State.storeBytes; split <;> rfl
@[simp] theorem State.storeBytes_i (a : Word) (bs : List Byte) : (s.storeBytes a bs).i = s.i := by
  unfold State.storeBytes; split <;> rfl
@[simp] theorem State.storeBytes_pc (a : Word) (bs : List Byte) : (s.storeBytes a bs).pc = s.pc := by
  unfold State.storeBytes; split <;> rfl
@[simp] theorem State.storeBytes_stack (a : Word) (bs : List Byte) : (s.storeBytes a bs).stack = s.stack := by
  unfold State.storeBytes; split <;> rfl
@[simp] theorem State.storeBytes_sp (a : Word) (bs : List Byte) : (s.storeBytes a bs).sp = s.sp := by
  unfold State.storeBytes; split <;> rfl
@[simp] theorem State.storeBytes_dt (a : Word) (bs : List Byte) : (s.storeBytes a bs).dt = s.dt := by
  unfold State.storeBytes; split <;> rfl
@[simp] theorem State.storeBytes_st (a : Word) (bs : List Byte) : (s.storeBytes a bs).st = s.st := by
  unfold State.storeBytes; split <;> rfl
@[simp] theorem State.storeBytes_fb (a : Word) (bs : List Byte) : (s.storeBytes a bs).fb = s.fb := by
  unfold State.storeBytes; split <;> rfl
@[simp] theorem State.storeBytes_keys (a : Word) (bs : List Byte) : (s.storeBytes a bs).keys = s.keys := by
  unfold State.storeBytes; split <;> rfl
@[simp] theorem State.storeBytes_rand (a : Word) (bs : List Byte) : (s.storeBytes a bs).rand = s.rand := by
  unfold State.storeBytes; split <;> rfl
@[simp] theorem State.storeBytes_loadResult (a : Word) (bs : List Byte) : (s.storeBytes a bs).loadResult = s.loadResult := by
  unfold State.storeBytes; split <;> rfl
@[simp] theorem State.storeBytes_launch (a : Word) (bs : List Byte) : (s.storeBytes a bs).launch = s.launch := by
  unfold State.storeBytes; split <;> rfl
@[simp] theorem State.storeBytes_inputs (a : Word) (bs : List Byte) : (s.storeBytes a bs).inputs = s.inputs := by
  unfold State.storeBytes; split <;> rfl
@[simp] theorem State.storeBytes_draws (a : Word) (bs : List Byte) : (s.storeBytes a bs).draws = s.draws := by
  unfold State.storeBytes; split <;> rfl
@[simp] theorem State.storeBytes_config (a : Word) (bs : List Byte) : (s.storeBytes a bs).config = s.config := by
  unfold State.storeBytes; split <;> rfl

/-! ### `loadRegsFrom`: the fields it never changes -/

@[simp] theorem State.loadRegsFrom_i (x : RegIdx) (a : Word) : (s.loadRegsFrom x a).i = s.i := rfl
@[simp] theorem State.loadRegsFrom_pc (x : RegIdx) (a : Word) : (s.loadRegsFrom x a).pc = s.pc := rfl
@[simp] theorem State.loadRegsFrom_stack (x : RegIdx) (a : Word) : (s.loadRegsFrom x a).stack = s.stack := rfl
@[simp] theorem State.loadRegsFrom_sp (x : RegIdx) (a : Word) : (s.loadRegsFrom x a).sp = s.sp := rfl
@[simp] theorem State.loadRegsFrom_dt (x : RegIdx) (a : Word) : (s.loadRegsFrom x a).dt = s.dt := rfl
@[simp] theorem State.loadRegsFrom_st (x : RegIdx) (a : Word) : (s.loadRegsFrom x a).st = s.st := rfl
@[simp] theorem State.loadRegsFrom_mem (x : RegIdx) (a : Word) : (s.loadRegsFrom x a).mem = s.mem := rfl
@[simp] theorem State.loadRegsFrom_fb (x : RegIdx) (a : Word) : (s.loadRegsFrom x a).fb = s.fb := rfl
@[simp] theorem State.loadRegsFrom_halt (x : RegIdx) (a : Word) : (s.loadRegsFrom x a).halt = s.halt := rfl
@[simp] theorem State.loadRegsFrom_keys (x : RegIdx) (a : Word) : (s.loadRegsFrom x a).keys = s.keys := rfl
@[simp] theorem State.loadRegsFrom_rand (x : RegIdx) (a : Word) : (s.loadRegsFrom x a).rand = s.rand := rfl
@[simp] theorem State.loadRegsFrom_event (x : RegIdx) (a : Word) : (s.loadRegsFrom x a).event = s.event := rfl
@[simp] theorem State.loadRegsFrom_loadResult (x : RegIdx) (a : Word) : (s.loadRegsFrom x a).loadResult = s.loadResult := rfl
@[simp] theorem State.loadRegsFrom_launch (x : RegIdx) (a : Word) : (s.loadRegsFrom x a).launch = s.launch := rfl
@[simp] theorem State.loadRegsFrom_inputs (x : RegIdx) (a : Word) : (s.loadRegsFrom x a).inputs = s.inputs := rfl
@[simp] theorem State.loadRegsFrom_draws (x : RegIdx) (a : Word) : (s.loadRegsFrom x a).draws = s.draws := rfl
@[simp] theorem State.loadRegsFrom_config (x : RegIdx) (a : Word) : (s.loadRegsFrom x a).config = s.config := rfl

/-! ### `flagThenResult`: the fields it never changes -/

@[simp] theorem State.flagThenResult_i (x y : RegIdx) (f g : Byte → Byte → Byte) : (s.flagThenResult x y f g).i = s.i := by
  unfold State.flagThenResult; split <;> rfl
@[simp] theorem State.flagThenResult_pc (x y : RegIdx) (f g : Byte → Byte → Byte) : (s.flagThenResult x y f g).pc = s.pc := by
  unfold State.flagThenResult; split <;> rfl
@[simp] theorem State.flagThenResult_stack (x y : RegIdx) (f g : Byte → Byte → Byte) : (s.flagThenResult x y f g).stack = s.stack := by
  unfold State.flagThenResult; split <;> rfl
@[simp] theorem State.flagThenResult_sp (x y : RegIdx) (f g : Byte → Byte → Byte) : (s.flagThenResult x y f g).sp = s.sp := by
  unfold State.flagThenResult; split <;> rfl
@[simp] theorem State.flagThenResult_dt (x y : RegIdx) (f g : Byte → Byte → Byte) : (s.flagThenResult x y f g).dt = s.dt := by
  unfold State.flagThenResult; split <;> rfl
@[simp] theorem State.flagThenResult_st (x y : RegIdx) (f g : Byte → Byte → Byte) : (s.flagThenResult x y f g).st = s.st := by
  unfold State.flagThenResult; split <;> rfl
@[simp] theorem State.flagThenResult_mem (x y : RegIdx) (f g : Byte → Byte → Byte) : (s.flagThenResult x y f g).mem = s.mem := by
  unfold State.flagThenResult; split <;> rfl
@[simp] theorem State.flagThenResult_fb (x y : RegIdx) (f g : Byte → Byte → Byte) : (s.flagThenResult x y f g).fb = s.fb := by
  unfold State.flagThenResult; split <;> rfl
@[simp] theorem State.flagThenResult_halt (x y : RegIdx) (f g : Byte → Byte → Byte) : (s.flagThenResult x y f g).halt = s.halt := by
  unfold State.flagThenResult; split <;> rfl
@[simp] theorem State.flagThenResult_keys (x y : RegIdx) (f g : Byte → Byte → Byte) : (s.flagThenResult x y f g).keys = s.keys := by
  unfold State.flagThenResult; split <;> rfl
@[simp] theorem State.flagThenResult_rand (x y : RegIdx) (f g : Byte → Byte → Byte) : (s.flagThenResult x y f g).rand = s.rand := by
  unfold State.flagThenResult; split <;> rfl
@[simp] theorem State.flagThenResult_event (x y : RegIdx) (f g : Byte → Byte → Byte) : (s.flagThenResult x y f g).event = s.event := by
  unfold State.flagThenResult; split <;> rfl
@[simp] theorem State.flagThenResult_loadResult (x y : RegIdx) (f g : Byte → Byte → Byte) : (s.flagThenResult x y f g).loadResult = s.loadResult := by
  unfold State.flagThenResult; split <;> rfl
@[simp] theorem State.flagThenResult_launch (x y : RegIdx) (f g : Byte → Byte → Byte) : (s.flagThenResult x y f g).launch = s.launch := by
  unfold State.flagThenResult; split <;> rfl
@[simp] theorem State.flagThenResult_inputs (x y : RegIdx) (f g : Byte → Byte → Byte) : (s.flagThenResult x y f g).inputs = s.inputs := by
  unfold State.flagThenResult; split <;> rfl
@[simp] theorem State.flagThenResult_draws (x y : RegIdx) (f g : Byte → Byte → Byte) : (s.flagThenResult x y f g).draws = s.draws := by
  unfold State.flagThenResult; split <;> rfl
@[simp] theorem State.flagThenResult_config (x y : RegIdx) (f g : Byte → Byte → Byte) : (s.flagThenResult x y f g).config = s.config := by
  unfold State.flagThenResult; split <;> rfl

end Sys2Proof.Machine
end

