-- ==== Sys2Proof/Laws/Ops.lean ====
section
/-! SUPPORT. One lemma per shared operation that says once what it can do; provers cite these and do not unfold the
operations. -/

namespace Sys2Proof.Machine

/-! ## Registers -/

@[simp] theorem State.reg_setReg (s : State) (x k : RegIdx) (b : Byte) :
    (s.setReg x b).reg k = if k = x then b else s.reg k := by
  simp only [State.reg, State.setReg, Vector.getElem_set, Fin.ext_iff]
  by_cases h : x.val = k.val
  · simp [h]
  · simp [h, Ne.symm h]

/-- Any update that leaves V alone leaves every register alone. -/
theorem State.reg_congr {s t : State} (h : t.v = s.v) (k : RegIdx) : t.reg k = s.reg k := by
  rw [State.reg, State.reg, h]

@[simp] theorem State.reg_setI (s : State) (a : Word) (k : RegIdx) : (s.setI a).reg k = s.reg k := rfl
@[simp] theorem State.reg_setPc (s : State) (a : Word) (k : RegIdx) : (s.setPc a).reg k = s.reg k := rfl
@[simp] theorem State.reg_setDt (s : State) (b : Byte) (k : RegIdx) : (s.setDt b).reg k = s.reg k := rfl
@[simp] theorem State.reg_setSt (s : State) (b : Byte) (k : RegIdx) : (s.setSt b).reg k = s.reg k := rfl
@[simp] theorem State.reg_setFb (s : State) (f : Framebuffer) (k : RegIdx) : (s.setFb f).reg k = s.reg k := rfl
@[simp] theorem State.reg_setMem (s : State) (m : Memory) (k : RegIdx) : (s.setMem m).reg k = s.reg k := rfl
@[simp] theorem State.reg_raiseFatal (s : State) (c : FatalCode) (k : RegIdx) : (s.raiseFatal c).reg k = s.reg k := rfl
@[simp] theorem State.reg_latch (s : State) (keys : BitVec 16) (r : Byte) (k : RegIdx) :
    (s.latch keys r).reg k = s.reg k := rfl
@[simp] theorem State.reg_advance (s : State) (k : RegIdx) : s.advance.reg k = s.reg k := rfl

/-- The address of the running instruction, seen after the cycle's advance. -/
@[simp] theorem State.pc0_advance (s : State) : s.advance.pc0 = s.pc := by
  simp [State.pc0]

theorem setRegsFrom_getElem (v : Vector Byte 16) (j : Nat) (bs : List Byte) (k : Nat) (hk : k < 16) :
    (setRegsFrom v j bs)[k] = if h : j ≤ k ∧ k < j + bs.length then bs[k - j] else v[k] := by
  induction bs generalizing v j with
  | nil =>
    rw [dif_neg (by simp)]
    rfl
  | cons b bs ih =>
    rw [setRegsFrom, ih]
    obtain hlt | heq | hgt := Nat.lt_trichotomy k j
    · rw [dif_neg (by omega), dif_neg (by omega), Vector.getElem_setIfInBounds_ne _ (by omega)]
    · subst heq
      rw [dif_neg (by omega), dif_pos (by simp)]
      simp
    · have hsub : k - j = k - (j + 1) + 1 := by omega
      by_cases hin : k < j + 1 + bs.length
      · rw [dif_pos (by omega), dif_pos (by simp only [List.length_cons]; omega)]
        simp [hsub]
      · rw [dif_neg (by omega), dif_neg (by simp only [List.length_cons]; omega),
          Vector.getElem_setIfInBounds_ne _ (by omega)]

/-- `LD Vx, [I]`: V[k] for k up to x is the byte at a + k, and every other register stays. -/
theorem State.reg_loadRegsFrom (s : State) (x : RegIdx) (a : Word) (k : RegIdx) :
    (s.loadRegsFrom x a).reg k = if k ≤ x then s.byteAt (a + BitVec.ofNat 16 k.val) else s.reg k := by
  simp only [State.reg, State.loadRegsFrom, setRegsFrom_getElem, readSeq_length, State.byteAt]
  by_cases h : k ≤ x
  · rw [dif_pos (by have := Fin.le_def.1 h; omega), if_pos h, readSeq_getElem]
    rfl
  · rw [dif_neg (by have := mt Fin.le_def.2 h; omega), if_neg h]

@[simp] theorem State.regsUpTo_length (s : State) (x : RegIdx) : (s.regsUpTo x).length = x.val + 1 := by
  have := x.isLt
  simp [State.regsUpTo]

theorem State.regsUpTo_getElem (s : State) (x : RegIdx) (k : Nat) (h : k < (s.regsUpTo x).length) :
    (s.regsUpTo x)[k] = s.reg ⟨k, by have := x.isLt; rw [State.regsUpTo_length] at h; omega⟩ := by
  simp [State.regsUpTo, State.reg]

/-! ## Control -/

@[simp] theorem State.skipIf_true (s : State) : s.skipIf true = s.setPc (s.pc + 2#16) := rfl
@[simp] theorem State.skipIf_false (s : State) : s.skipIf false = s := rfl

/-- A call pushes and goes, or, with a full stack, halts. -/
theorem State.callTo_cases (s : State) (a : Word) :
    (∃ h : s.sp.val < 16, s.callTo a = { s with stack := s.stack.set s.sp.val s.pc,
                                                sp := ⟨s.sp.val + 1, by omega⟩, pc := a }) ∨
    (s.sp.val = 16 ∧ s.callTo a = s.raiseFatal .stackOverflow) := by
  unfold State.callTo
  split
  · next h => exact .inl ⟨h, rfl⟩
  · next h => exact .inr ⟨by have := s.sp.isLt; omega, rfl⟩

/-- A return pops and resumes, or, with an empty stack, halts. -/
theorem State.returnFromCall_cases (s : State) :
    (∃ (h : s.sp.val - 1 < 16) (h' : s.sp.val - 1 < 17), s.sp.val ≠ 0 ∧
      s.returnFromCall = { s with sp := ⟨s.sp.val - 1, h'⟩, pc := s.stack[s.sp.val - 1] }) ∨
    (s.sp.val = 0 ∧ s.returnFromCall = s.raiseFatal .stackUnderflow) := by
  have := s.sp.isLt
  unfold State.returnFromCall
  split
  · exact .inl ⟨by omega, by omega, by omega, rfl⟩
  · exact .inr ⟨by omega, rfl⟩

/-! ## Stores -/

theorem State.storeFaults_iff (s : State) (a : Word) (n : Nat) :
    s.storeFaults a n = true ↔
      s.config.fontProtect = .fault ∧ ∃ k < n, inFont (a + BitVec.ofNat 16 k) = true := by
  rw [State.storeFaults, Bool.and_eq_true, beq_iff_eq, touchesFont_iff]

/-- A store puts every byte, or, where a target is a protected font byte, none and halts. -/
theorem State.storeBytes_cases (s : State) (a : Word) (bs : List Byte) :
    (s.storeFaults a bs.length = true ∧ s.storeBytes a bs = s.raiseFatal .fontWrite) ∨
    (s.storeFaults a bs.length = false ∧ s.storeBytes a bs = s.setMem (writeSeq s.mem a bs)) := by
  unfold State.storeBytes
  split
  · next h => exact .inl ⟨h, rfl⟩
  · next h => exact .inr ⟨by simpa using h, rfl⟩

theorem State.storeBytes_wf {s : State} (hm : Memory.wf s.mem = true) (a : Word) (bs : List Byte) :
    Memory.wf (s.storeBytes a bs).mem = true := by
  obtain ⟨-, h⟩ | ⟨-, h⟩ := s.storeBytes_cases a bs
  · rw [h]; exact hm
  · rw [h]; exact writeSeq_wf hm a bs

/-- A cell that no byte of the store names keeps its content. -/
theorem State.storeBytes_byteAt_outside (s : State) (a c : Word) (bs : List Byte) (hl : bs.length ≤ 4096)
    (h : ∀ k < bs.length, maskAddr c ≠ maskAddr (a + BitVec.ofNat 16 k)) :
    (s.storeBytes a bs).byteAt c = s.byteAt c := by
  obtain ⟨-, hs⟩ | ⟨-, hs⟩ := s.storeBytes_cases a bs
  · rw [hs]; rfl
  · rw [hs]
    apply memRead_writeSeq_outside _ _ _ _ hl
    by_contra hlt
    refine h (maskAddr (c - a)) (by omega) ?_
    simp only [maskAddr_eq_mod, BitVec.toNat_sub, BitVec.toNat_add, BitVec.toNat_ofNat]
    have := c.isLt; have := a.isLt
    omega

/-- Under `FONT_PROTECT = fault` a store changes no font byte. -/
theorem State.storeBytes_byteAt_font (s : State) (a c : Word) (bs : List Byte) (hl : bs.length ≤ 4096)
    (hp : s.config.fontProtect = .fault) (hc : inFont c = true) : (s.storeBytes a bs).byteAt c = s.byteAt c := by
  obtain ⟨-, hs⟩ | ⟨hf, -⟩ := s.storeBytes_cases a bs
  · rw [hs]; rfl
  · apply s.storeBytes_byteAt_outside a c bs hl
    intro k hk he
    have hin : inFont (a + BitVec.ofNat 16 k) = true := by
      rw [inFont_iff] at hc ⊢
      rwa [← he]
    have := (s.storeFaults_iff a bs.length).2 ⟨hp, k, hk, hin⟩
    rw [hf] at this
    cases this

/-! ## Operand forms and flags -/

theorem lowestKey_eq_some_iff (keys : BitVec 16) (k : Nat) :
    lowestKey keys = some k ↔ k < 16 ∧ keys.getLsbD k = true ∧ ∀ j < k, keys.getLsbD j = false := by
  rw [lowestKey, List.find?_range_eq_some]
  simp only [List.mem_range, Bool.not_eq_true']
  tauto

theorem lowestKey_eq_none_iff (keys : BitVec 16) : lowestKey keys = none ↔ ∀ k < 16, keys.getLsbD k = false := by
  simp [lowestKey]

@[simp] theorem decimalDigits_length (b : Byte) : (decimalDigits b).length = 3 := rfl

theorem indexedTarget_toNat (b : Byte) (nnn : Addr12) : (indexedTarget b nnn).toNat = b.toNat + nnn.toNat := by
  have := b.isLt; have := nnn.isLt
  simp only [indexedTarget, BitVec.toNat_add, BitVec.toNat_setWidth]
  omega

theorem glyphAddr_toNat (d : Byte) : (glyphAddr d).toNat = 0x050 + 5 * d.toNat := by
  have := d.isLt
  simp only [glyphAddr, BitVec.toNat_add, BitVec.toNat_ofNat, Config.fontBase, Config.glyphBytes]
  omega

theorem countDown_toNat (b : Byte) : (countDown b).toNat = b.toNat - 1 := by
  unfold countDown
  split
  · next h => simp [h]
  · next h =>
    have hne : b.toNat ≠ 0 := fun h0 => h (BitVec.eq_of_toNat_eq (by simpa using h0))
    have := b.isLt
    rw [BitVec.toNat_sub, BitVec.toNat_ofNat]
    omega

/-- A flag instruction's V[x] under `sequential` (43_alu.md R138). -/
theorem State.reg_flagThenResult (s : State) (x y : RegIdx) (f g : Byte → Byte → Byte) (k : RegIdx) :
    (s.flagThenResult x y f g).reg k =
      let fl := f (s.reg x) (s.reg y)
      let a := if s.config.aluOperandRead = .sequential ∧ x = VF then fl else s.reg x
      let b := if s.config.aluOperandRead = .sequential ∧ y = VF then fl else s.reg y
      if k = x then g a b else if k = VF then fl else s.reg k := by
  unfold State.flagThenResult
  cases h : s.config.aluOperandRead <;> simp

/-! ## The cycle and the fetch -/

/-- The fetch depends on memory and PC alone. -/
theorem State.fetchWord_congr {s t : State} (hm : t.mem = s.mem) (hp : t.pc = s.pc) : t.fetchWord = s.fetchWord := by
  rw [State.fetchWord, State.fetchWord, hm, hp]

/-- A running machine's cycle is `exec` of the decoded instruction, or the report. -/
theorem State.cycle_running {s : State} (h : s.halt = .running) (keys : BitVec 16) (r : Byte) :
    s.cycle keys r =
      match decode s.config.strictRegSkip s.fetchWord with
      | .instr i => exec i (s.latch keys r).advance
      | .unknownOpcode op => .next ((s.latch keys r).advance.reportUnknown op) := by
  unfold State.cycle
  cases decode s.config.strictRegSkip s.fetchWord <;> simp only [h]

theorem State.cycle_halted {s : State} {c : FatalCode} {a : Word} (h : s.halt = .halted c a) (keys : BitVec 16)
    (r : Byte) : s.cycle keys r = .fault (.halted c a) := by
  simp only [State.cycle, h]

/-- Where a cycle answers a next state, the machine was running, and it is the executed instruction's or the
report's. -/
theorem State.cycle_next {s t : State} {keys : BitVec 16} {r : Byte} (h : s.cycle keys r = .next t) :
    s.halt = .running ∧
    ((∃ i, decode s.config.strictRegSkip s.fetchWord = .instr i ∧ exec i (s.latch keys r).advance = .next t) ∨
     (∃ op, decode s.config.strictRegSkip s.fetchWord = .unknownOpcode op ∧
        t = (s.latch keys r).advance.reportUnknown op)) := by
  unfold State.cycle at h
  split at h
  · cases h
  · next hr =>
    refine ⟨hr, ?_⟩
    split at h
    · next i hi => exact .inl ⟨i, hi, h⟩
    · next op ho => exact .inr ⟨op, ho, by simpa using h.symm⟩

/-- A placed opcode is what the machine fetches. -/
theorem State.fetchWord_placeWord {s : State} (hm : Memory.wf s.mem = true) (w : Word) :
    (s.placeWord w).fetchWord = w := by
  have e0 := memRead_writeSeq_at hm s.pc [hiByte w, loByte w] 0 (by simp) (by simp)
  have e1 := memRead_writeSeq_at hm s.pc [hiByte w, loByte w] 1 (by simp) (by simp)
  simp only [BitVec.add_zero, List.getElem_cons_zero, List.getElem_cons_succ] at e0 e1
  simp [State.fetchWord, State.placeWord, e0, e1]

/-! ## Reset and load -/

/-- The font that reset writes reads back; nothing else is written. -/
theorem withFont_wf (g : Vector Byte 80) : Memory.wf (Memory.withFont g) = true :=
  writeSeq_wf (m := []) rfl _ _

theorem memRead_withFont_font (g : Vector Byte 80) (d : Fin 80) :
    memRead (Memory.withFont g) (Config.fontBase + BitVec.ofNat 16 d.val) = g[d.val] := by
  have hd := d.isLt
  rw [Memory.withFont, memRead_writeSeq_at (m := []) rfl _ _ _ (by simp) (by simp)]
  simp

theorem inFont_fontBase_add (d : Nat) (hd : d < 80) : inFont (Config.fontBase + BitVec.ofNat 16 d) = true := by
  simp only [inFont_iff, maskAddr_eq_mod, BitVec.toNat_add, BitVec.toNat_ofNat, Config.fontBase]
  omega

theorem memRead_withFont_other (g : Vector Byte 80) (a : Word) (ha : inFont a = false) :
    memRead (Memory.withFont g) a = 0#8 := by
  have hn : ¬ (0x050 ≤ maskAddr a ∧ maskAddr a ≤ 0x09F) := by
    rw [← inFont_iff, ha]; simp
  rw [Memory.withFont, memRead_writeSeq_outside]
  · show Memory.unlisted (maskAddr a) = 0#8
    rw [Memory.unlisted, dif_neg hn]
    rfl
  · simp
  · have hsub : maskAddr (a - Config.fontBase) = (maskAddr a + 4096 - 0x050) % 4096 := by
      have := a.isLt
      simp only [maskAddr_eq_mod, BitVec.toNat_sub, Config.fontBase, BitVec.toNat_ofNat]
      omega
    have := maskAddr_lt a
    simp only [Vector.length_toList]
    rw [hsub]
    omega

end Sys2Proof.Machine
end

