-- ==== Sys2Proof/Laws/Draw.lean ====
section
/-! SUPPORT. The laws of the sprite-draw unit: one pixel after a toggle, and a whole draw as the toggling of a list of
targets. -/

namespace Sys2Proof.Machine

theorem Framebuffer.pixel_setPixel (f : Framebuffer) (c c' : Fin 64) (r r' : Fin 32) (b : Bool) :
    (f.setPixel c r b).pixel c' r' = if c' = c ∧ r' = r then b else f.pixel c' r' := by
  simp only [Framebuffer.pixel, Framebuffer.setPixel, Vector.getElem_set]
  by_cases hc : c = c'
  · subst hc
    by_cases hr : r = r'
    · subst hr; simp
    · have hr' : ¬ r.val = r'.val := fun h => hr (Fin.ext h)
      simp [hr', Ne.symm hr]
  · have hc' : ¬ c.val = c'.val := fun h => hc (Fin.ext h)
    simp [hc', Ne.symm hc]

@[simp] theorem Framebuffer.pixel_clear (c : Fin 64) (r : Fin 32) : Framebuffer.clear.pixel c r = false := by
  simp [Framebuffer.pixel, Framebuffer.clear]

/-- Two framebuffers that agree at every pixel are equal. -/
theorem Framebuffer.ext_pixel {f g : Framebuffer} (h : ∀ c r, f.pixel c r = g.pixel c r) : f = g := by
  apply Vector.ext
  intro c hc
  apply Vector.ext
  intro r hr
  exact h ⟨c, hc⟩ ⟨r, hr⟩

@[simp] theorem Canvas.toggle_pixel (k : Canvas) (t : Fin 64 × Fin 32) (c : Fin 64) (r : Fin 32) :
    (k.toggle t).fb.pixel c r = if (c, r) = t then !k.fb.pixel c r else k.fb.pixel c r := by
  obtain ⟨c0, r0⟩ := t
  simp only [Canvas.toggle, Framebuffer.pixel_setPixel, Prod.mk.injEq]
  split
  · next h => obtain ⟨rfl, rfl⟩ := h; rfl
  · rfl

/-! ## A draw as a list of targets -/

/-- The targets of one sprite row, left to right. -/
def rowTargets (edge : SpriteEdge) (xPos : Fin 64) (yPos : Fin 32) (row : Nat) (b : Byte) : List (Fin 64 × Fin 32) :=
  (List.range 8).filterMap fun col => if b.getLsbD (7 - col) then spriteTarget edge xPos yPos col row else none

/-- The targets of the rows from `row` on. -/
def rowsTargets (edge : SpriteEdge) (xPos : Fin 64) (yPos : Fin 32) : Nat → List Byte → List (Fin 64 × Fin 32)
  | _, [] => []
  | row, b :: bs => rowTargets edge xPos yPos row b ++ rowsTargets edge xPos yPos (row + 1) bs

theorem foldl_drawBit (edge : SpriteEdge) (xPos : Fin 64) (yPos : Fin 32) (row : Nat) (b : Byte) (cols : List Nat)
    (k : Canvas) :
    cols.foldl (Canvas.drawBit edge xPos yPos row b) k =
      (cols.filterMap fun col =>
        if b.getLsbD (7 - col) then spriteTarget edge xPos yPos col row else none).foldl Canvas.toggle k := by
  induction cols generalizing k with
  | nil => rfl
  | cons col cols ih =>
    rw [List.foldl_cons, ih, List.filterMap_cons]
    unfold Canvas.drawBit
    split
    · cases spriteTarget edge xPos yPos col row <;> rfl
    · rfl

/-- A draw toggles its targets one after another. -/
theorem drawRows_eq_foldl (edge : SpriteEdge) (xPos : Fin 64) (yPos : Fin 32) (row : Nat) (bs : List Byte) (k : Canvas) :
    Canvas.drawRows edge xPos yPos row bs k = (rowsTargets edge xPos yPos row bs).foldl Canvas.toggle k := by
  induction bs generalizing row k with
  | nil => rfl
  | cons b bs ih =>
    rw [Canvas.drawRows, ih, rowsTargets, List.foldl_append, Canvas.drawRow, foldl_drawBit]
    rfl

/-- Toggling targets that do not repeat flips exactly the pixels among them. -/
theorem foldl_toggle_pixel (ts : List (Fin 64 × Fin 32)) (hn : ts.Nodup) (k : Canvas) (c : Fin 64) (r : Fin 32) :
    (ts.foldl Canvas.toggle k).fb.pixel c r = if (c, r) ∈ ts then !k.fb.pixel c r else k.fb.pixel c r := by
  induction ts generalizing k with
  | nil => simp
  | cons t ts ih =>
    obtain ⟨ht, hn⟩ := List.nodup_cons.1 hn
    rw [List.foldl_cons, ih hn, Canvas.toggle_pixel]
    by_cases he : (c, r) = t
    · rw [he]; simp [ht]
    · simp [he]

/-- The collision flag of toggling targets that do not repeat: a target was on before. -/
theorem foldl_toggle_hit (ts : List (Fin 64 × Fin 32)) (hn : ts.Nodup) (k : Canvas) :
    (ts.foldl Canvas.toggle k).hit = true ↔ k.hit = true ∨ ∃ t ∈ ts, k.fb.pixel t.1 t.2 = true := by
  induction ts generalizing k with
  | nil => simp
  | cons t ts ih =>
    obtain ⟨ht, hn⟩ := List.nodup_cons.1 hn
    rw [List.foldl_cons, ih hn]
    have hsame : ∀ u ∈ ts, (k.toggle t).fb.pixel u.1 u.2 = k.fb.pixel u.1 u.2 := by
      intro u hu
      rw [Canvas.toggle_pixel, if_neg]
      rintro rfl
      exact ht hu
    simp only [Canvas.toggle, Bool.or_eq_true, List.mem_cons, exists_eq_or_imp]
    constructor
    · rintro ((h | h) | ⟨u, hu, h⟩)
      · exact .inl h
      · exact .inr (.inl h)
      · exact .inr (.inr ⟨u, hu, by rw [← hsame u hu]; exact h⟩)
    · rintro (h | h | ⟨u, hu, h⟩)
      · exact .inl (.inl h)
      · exact .inl (.inr h)
      · exact .inr ⟨u, hu, by rw [← hsame u hu] at h; exact h⟩

/-- A target is a pixel at a column and a row offset within the sprite, past no edge or wrapped. -/
theorem spriteTarget_eq_some_iff (edge : SpriteEdge) (xPos : Fin 64) (yPos : Fin 32) (col row : Nat) (c : Fin 64)
    (r : Fin 32) :
    spriteTarget edge xPos yPos col row = some (c, r) ↔
      match edge with
      | .clip => xPos.val + col = c.val ∧ yPos.val + row = r.val
      | .wrap => (xPos.val + col) % 64 = c.val ∧ (yPos.val + row) % 32 = r.val := by
  cases edge with
  | clip =>
    simp only [spriteTarget]
    split
    · simp [Fin.ext_iff]
    · next h =>
      simp only [reduceCtorEq, false_iff]
      rintro ⟨h1, h2⟩
      exact h ⟨by omega, by omega⟩
  | wrap => simp [spriteTarget, Fin.ext_iff, Fin.ofNat]

/-- The columns of one draw do not fall on each other, nor do its rows (47_draw.md R174). -/
theorem spriteTarget_injective {edge : SpriteEdge} {xPos : Fin 64} {yPos : Fin 32} {col col' row row' : Nat}
    {t : Fin 64 × Fin 32} (hc : col < 8) (hc' : col' < 8) (hr : row < 32) (hr' : row' < 32)
    (h : spriteTarget edge xPos yPos col row = some t) (h' : spriteTarget edge xPos yPos col' row' = some t) :
    col = col' ∧ row = row' := by
  obtain ⟨c, r⟩ := t
  rw [spriteTarget_eq_some_iff] at h h'
  have := xPos.isLt
  have := yPos.isLt
  cases edge <;> simp only at h h' <;> omega

theorem mem_rowTargets {edge : SpriteEdge} {xPos : Fin 64} {yPos : Fin 32} {row : Nat} {b : Byte}
    {t : Fin 64 × Fin 32} :
    t ∈ rowTargets edge xPos yPos row b ↔
      ∃ col < 8, b.getLsbD (7 - col) = true ∧ spriteTarget edge xPos yPos col row = some t := by
  simp [rowTargets]

theorem mem_rowsTargets {edge : SpriteEdge} {xPos : Fin 64} {yPos : Fin 32} {row : Nat} {bs : List Byte}
    {t : Fin 64 × Fin 32} :
    t ∈ rowsTargets edge xPos yPos row bs ↔
      ∃ (j : Nat) (h : j < bs.length), ∃ col < 8, bs[j].getLsbD (7 - col) = true ∧
        spriteTarget edge xPos yPos col (row + j) = some t := by
  induction bs generalizing row with
  | nil => simp [rowsTargets]
  | cons b bs ih =>
    rw [rowsTargets, List.mem_append, mem_rowTargets, ih]
    constructor
    · rintro (⟨col, hc, h⟩ | ⟨j, hj, col, hc, hb, ht⟩)
      · exact ⟨0, by simp, col, hc, by simpa using h⟩
      · exact ⟨j + 1, by simpa using hj, col, hc, by simpa using hb, by rwa [Nat.add_right_comm, Nat.add_assoc] at ht⟩
    · rintro ⟨j, hj, col, hc, hb, ht⟩
      cases j with
      | zero => exact .inl ⟨col, hc, by simpa using hb, by simpa using ht⟩
      | succ j =>
        exact .inr ⟨j, by simpa using hj, col, hc, by simpa using hb, by
          rwa [Nat.add_right_comm, Nat.add_assoc]⟩

theorem nodup_rowTargets (edge : SpriteEdge) (xPos : Fin 64) (yPos : Fin 32) (row : Nat) (hr : row < 32) (b : Byte) :
    (rowTargets edge xPos yPos row b).Nodup := by
  rw [rowTargets, List.Nodup, List.pairwise_filterMap]
  apply List.Pairwise.imp_of_mem _ List.nodup_range
  intro c c' hc hc' hne t ht t' ht' he
  subst he
  rw [List.mem_range] at hc hc'
  simp only [Option.ite_none_right_eq_some] at ht ht'
  exact hne (spriteTarget_injective hc hc' hr hr ht.2 ht'.2).1

/-- Within one draw no pixel is targeted twice (47_draw.md R174). -/
theorem nodup_rowsTargets (edge : SpriteEdge) (xPos : Fin 64) (yPos : Fin 32) (row : Nat) (bs : List Byte)
    (h : row + bs.length ≤ 32) : (rowsTargets edge xPos yPos row bs).Nodup := by
  induction bs generalizing row with
  | nil => exact List.nodup_nil
  | cons b bs ih =>
    simp only [List.length_cons] at h
    rw [rowsTargets, List.nodup_append]
    refine ⟨nodup_rowTargets _ _ _ _ (by omega) _, ih (row + 1) (by omega), ?_⟩
    rintro t ht u hu rfl
    obtain ⟨col, hc, -, h1⟩ := mem_rowTargets.1 ht
    obtain ⟨j, hj, col', hc', -, h2⟩ := mem_rowsTargets.1 hu
    have := (spriteTarget_injective hc hc' (by omega) (by omega) h1 h2).2
    omega

/-- The framebuffer after a draw, pixel by pixel. -/
theorem State.drawn_pixel (s : State) (x y : RegIdx) (n : Nat) (hn : n ≤ 32) (c : Fin 64) (r : Fin 32) :
    (s.drawn x y n).fb.pixel c r =
      if (c, r) ∈ rowsTargets s.config.spriteEdge (originCol (s.reg x)) (originRow (s.reg y)) 0 (readSeq s.mem s.i n)
      then !s.fb.pixel c r else s.fb.pixel c r := by
  rw [State.drawn, drawRows_eq_foldl, foldl_toggle_pixel _ (nodup_rowsTargets _ _ _ _ _ (by simpa using hn))]

/-- The collision of a draw: a target was on. -/
theorem State.drawn_hit (s : State) (x y : RegIdx) (n : Nat) (hn : n ≤ 32) :
    (s.drawn x y n).hit = true ↔
      ∃ t ∈ rowsTargets s.config.spriteEdge (originCol (s.reg x)) (originRow (s.reg y)) 0 (readSeq s.mem s.i n),
        s.fb.pixel t.1 t.2 = true := by
  rw [State.drawn, drawRows_eq_foldl, foldl_toggle_hit _ (nodup_rowsTargets _ _ _ _ _ (by simpa using hn))]
  simp

end Sys2Proof.Machine
end

