-- ==== Sys2Proof/Laws/Frames.lean ====
section
/-! SUPPORT. Each shared operation as an update of the fields it may write and no other, and its independence of the input
ports. With these a frame or a port statement about an instruction is one case of `exec` and one rewrite. -/

namespace Sys2Proof.Machine

variable (s : State)

/-! ## What an operation may write -/

theorem State.skipIf_eq (p : Bool) : s.skipIf p = { s with pc := if p then s.pc + 2#16 else s.pc } := by
  cases p <;> rfl

theorem State.flagThenResult_eq (x y : RegIdx) (f g : Byte → Byte → Byte) :
    s.flagThenResult x y f g = { s with v := (s.flagThenResult x y f g).v } := by
  unfold State.flagThenResult
  split <;> rfl

theorem State.callTo_eq (a : Word) :
    s.callTo a = { s with
      stack := (s.callTo a).stack, sp := (s.callTo a).sp, pc := (s.callTo a).pc, halt := (s.callTo a).halt,
      event := (s.callTo a).event } := by
  unfold State.callTo
  split <;> rfl

theorem State.returnFromCall_eq :
    s.returnFromCall = { s with
      sp := s.returnFromCall.sp, pc := s.returnFromCall.pc, halt := s.returnFromCall.halt,
      event := s.returnFromCall.event } := by
  unfold State.returnFromCall
  split <;> rfl

theorem State.storeBytes_eq (a : Word) (bs : List Byte) :
    s.storeBytes a bs = { s with
      mem := (s.storeBytes a bs).mem, halt := (s.storeBytes a bs).halt, event := (s.storeBytes a bs).event } := by
  unfold State.storeBytes
  split <;> rfl

/-! ## The input ports reach no shared operation -/

theorem State.skipIf_latch (p : Bool) (keys : BitVec 16) (r : Byte) :
    (s.latch keys r).skipIf p = (s.skipIf p).latch keys r := by
  cases p <;> rfl

theorem State.callTo_latch (a : Word) (keys : BitVec 16) (r : Byte) :
    (s.latch keys r).callTo a = (s.callTo a).latch keys r := by
  obtain ⟨h, he⟩ | ⟨h, he⟩ := s.callTo_cases a
  · rw [he, State.callTo, dif_pos (show (s.latch keys r).sp.val < 16 from h)]
    rfl
  · rw [he, State.callTo, dif_neg (show ¬ (s.latch keys r).sp.val < 16 by simp [h])]
    rfl

theorem State.returnFromCall_latch (keys : BitVec 16) (r : Byte) :
    (s.latch keys r).returnFromCall = s.returnFromCall.latch keys r := by
  obtain ⟨h1, h2, h, he⟩ | ⟨h, he⟩ := s.returnFromCall_cases
  · rw [he, State.returnFromCall, dif_pos (show 0 < (s.latch keys r).sp.val by rw [State.latch_sp]; omega)]
    rfl
  · rw [he, State.returnFromCall, dif_neg (show ¬ 0 < (s.latch keys r).sp.val by simp [h])]
    rfl

theorem State.storeBytes_latch (a : Word) (bs : List Byte) (keys : BitVec 16) (r : Byte) :
    (s.latch keys r).storeBytes a bs = (s.storeBytes a bs).latch keys r := by
  have hf : (s.latch keys r).storeFaults a bs.length = s.storeFaults a bs.length := rfl
  unfold State.storeBytes
  rw [hf]
  split <;> rfl

theorem State.flagThenResult_latch (x y : RegIdx) (f g : Byte → Byte → Byte) (keys : BitVec 16) (r : Byte) :
    (s.latch keys r).flagThenResult x y f g = (s.flagThenResult x y f g).latch keys r := by
  have hc : (s.latch keys r).config.aluOperandRead = s.config.aluOperandRead := rfl
  unfold State.flagThenResult
  rw [hc]
  cases s.config.aluOperandRead <;> rfl

theorem State.loadRegsFrom_latch (x : RegIdx) (a : Word) (keys : BitVec 16) (r : Byte) :
    (s.latch keys r).loadRegsFrom x a = (s.loadRegsFrom x a).latch keys r :=
  rfl

end Sys2Proof.Machine
end

