-- ==== Sys2Proof/Laws/OpcodeMap.lean ====
section
/-! SUPPORT. The masks of the table of R76 select fields: what it is for a word to have a row's pattern. -/

namespace Sys2Proof

theorem and_maskH (w : Word) : w &&& 0xF000#16 = wordNnn (fieldH w) 0#12 := by
  conv_lhs => rw [← wordNnn_fields w, show (0xF000#16 : Word) = 0xF#4 ++ 0x000#12 from rfl, wordNnn]
  rw [BitVec.and_append, BitVec.and_zero]
  congr 1
  exact BitVec.and_allOnes

theorem and_maskHN (w : Word) : w &&& 0xF00F#16 = wordXYN (fieldH w) 0 0 (fieldN w) := by
  conv_lhs =>
    rw [← wordXYN_fields w, show (0xF00F#16 : Word) = 0xF#4 ++ 0x0#4 ++ 0x0#4 ++ 0xF#4 from rfl, wordXYN]
  rw [BitVec.and_append, BitVec.and_append, BitVec.and_append, BitVec.and_zero, BitVec.and_zero,
    show (0xF#4 : BitVec 4) = BitVec.allOnes 4 from rfl, BitVec.and_allOnes, BitVec.and_allOnes]
  rfl

theorem and_maskHKk (w : Word) : w &&& 0xF0FF#16 = wordXKk (fieldH w) 0 (fieldKk w) := by
  conv_lhs =>
    rw [← wordXKk_fields w, show (0xF0FF#16 : Word) = 0xF#4 ++ 0x0#4 ++ 0xFF#8 from rfl, wordXKk]
  rw [BitVec.and_append, BitVec.and_append, BitVec.and_zero,
    show (0xF#4 : BitVec 4) = BitVec.allOnes 4 from rfl, show (0xFF#8 : BitVec 8) = BitVec.allOnes 8 from rfl,
    BitVec.and_allOnes, BitVec.and_allOnes]
  rfl

/-- A row with mask F000 is met by the high nibble alone. -/
theorem matches_maskH {n : Nat} {v w : Word} (hv : wordNnn (fieldH v) 0#12 = v) :
    OpcodeRow.matches ⟨n, 0xF000#16, v⟩ w = true ↔ fieldH w = fieldH v := by
  rw [OpcodeRow.matches, beq_iff_eq, and_maskH]
  constructor
  · intro h
    dsimp only at h
    rw [← h, fieldH_wordNnn]
  · intro h
    rw [h, hv]

/-- A row with mask F00F is met by the high and the low nibble. -/
theorem matches_maskHN {n : Nat} {v w : Word} (hv : wordXYN (fieldH v) 0 0 (fieldN v) = v) :
    OpcodeRow.matches ⟨n, 0xF00F#16, v⟩ w = true ↔ fieldH w = fieldH v ∧ fieldN w = fieldN v := by
  rw [OpcodeRow.matches, beq_iff_eq, and_maskHN]
  constructor
  · intro h
    dsimp only at h
    rw [← h, fieldH_wordXYN, fieldN_wordXYN]
    exact ⟨rfl, rfl⟩
  · rintro ⟨h, h'⟩
    rw [h, h', hv]

/-- A row with mask F0FF is met by the high nibble and the low byte. -/
theorem matches_maskHKk {n : Nat} {v w : Word} (hv : wordXKk (fieldH v) 0 (fieldKk v) = v) :
    OpcodeRow.matches ⟨n, 0xF0FF#16, v⟩ w = true ↔ fieldH w = fieldH v ∧ fieldKk w = fieldKk v := by
  rw [OpcodeRow.matches, beq_iff_eq, and_maskHKk]
  constructor
  · intro h
    dsimp only at h
    rw [← h, fieldH_wordXKk, fieldKk_wordXKk]
    exact ⟨rfl, rfl⟩
  · rintro ⟨h, h'⟩
    rw [h, h', hv]

/-- A row with mask FFFF is met by one word. -/
theorem matches_maskAll {n : Nat} {v w : Word} : OpcodeRow.matches ⟨n, 0xFFFF#16, v⟩ w = true ↔ w = v := by
  rw [OpcodeRow.matches, beq_iff_eq, show (0xFFFF#16 : Word) = BitVec.allOnes 16 from rfl, BitVec.and_allOnes]

/-- The canonical form, in the named fields. -/
theorem canonicalWord_eq (w : Word) :
    canonicalWord w =
      match fieldH w with
      | 0x5#4 => fieldN w == 0
      | 0x9#4 => fieldN w == 0
      | 0x8#4 =>
        match fieldN w with
        | 0x6#4 => nibble (fieldY w) == 0
        | 0xE#4 => nibble (fieldY w) == 0
        | _ => true
      | _ => true :=
  rfl

end Sys2Proof
end

