-- ==== Sys2Proof/Laws/PerInstr.lean ====
section
/-! SUPPORT. Families of statements about an instruction as syntax, one lemma per constructor. -/

namespace Sys2Proof.Laws

/-- The encoding of the instruction has the pattern of its own row of the table of R76, under either setting of
`STRICT_REG_SKIP`, and sets no bit the instruction ignores. -/
def RowPattern.Statement (i : Instr) : Prop :=
  (∀ strict, ∃ r ∈ opcodeMap strict, r.num = rowNum i ∧ r.matches (encode i) = true) ∧ canonicalWord (encode i) = true

theorem RowPattern.cls : RowPattern.Statement .cls :=
  ⟨fun strict => ⟨⟨1, 0xFFFF#16, 0x00E0#16⟩, by cases strict <;> decide, rfl, matches_maskAll.2 rfl⟩, by decide⟩

theorem RowPattern.ret : RowPattern.Statement .ret :=
  ⟨fun strict => ⟨⟨2, 0xFFFF#16, 0x00EE#16⟩, by cases strict <;> decide, rfl, matches_maskAll.2 rfl⟩, by decide⟩

theorem RowPattern.jp (nnn : Addr12) : RowPattern.Statement (.jp nnn) :=
  ⟨fun strict => ⟨⟨3, 0xF000#16, 0x1000#16⟩, by cases strict <;> decide, rfl,
    (matches_maskH (by decide)).2 (by simp [encode]; rfl)⟩, by simp [encode, canonicalWord_eq]⟩

theorem RowPattern.call (nnn : Addr12) : RowPattern.Statement (.call nnn) :=
  ⟨fun strict => ⟨⟨4, 0xF000#16, 0x2000#16⟩, by cases strict <;> decide, rfl,
    (matches_maskH (by decide)).2 (by simp [encode]; rfl)⟩, by simp [encode, canonicalWord_eq]⟩

theorem RowPattern.seImm (x : RegIdx) (kk : Byte) : RowPattern.Statement (.seImm x kk) :=
  ⟨fun strict => ⟨⟨5, 0xF000#16, 0x3000#16⟩, by cases strict <;> decide, rfl,
    (matches_maskH (by decide)).2 (by simp [encode]; rfl)⟩, by simp [encode, canonicalWord_eq]⟩

theorem RowPattern.sneImm (x : RegIdx) (kk : Byte) : RowPattern.Statement (.sneImm x kk) :=
  ⟨fun strict => ⟨⟨6, 0xF000#16, 0x4000#16⟩, by cases strict <;> decide, rfl,
    (matches_maskH (by decide)).2 (by simp [encode]; rfl)⟩, by simp [encode, canonicalWord_eq]⟩

theorem RowPattern.seReg (x : RegIdx) (y : RegIdx) : RowPattern.Statement (.seReg x y) := by
  refine ⟨fun strict => ?_, by simp [encode, canonicalWord_eq]⟩
  cases strict
  · exact ⟨⟨7, 0xF000#16, 0x5000#16⟩, by decide, rfl, (matches_maskH (by decide)).2 (by simp [encode]; rfl)⟩
  · exact ⟨⟨7, 0xF00F#16, 0x5000#16⟩, by decide, rfl, (matches_maskHN (by decide)).2 (by simp [encode]; decide)⟩

theorem RowPattern.ldImm (x : RegIdx) (kk : Byte) : RowPattern.Statement (.ldImm x kk) :=
  ⟨fun strict => ⟨⟨8, 0xF000#16, 0x6000#16⟩, by cases strict <;> decide, rfl,
    (matches_maskH (by decide)).2 (by simp [encode]; rfl)⟩, by simp [encode, canonicalWord_eq]⟩

theorem RowPattern.addImm (x : RegIdx) (kk : Byte) : RowPattern.Statement (.addImm x kk) :=
  ⟨fun strict => ⟨⟨9, 0xF000#16, 0x7000#16⟩, by cases strict <;> decide, rfl,
    (matches_maskH (by decide)).2 (by simp [encode]; rfl)⟩, by simp [encode, canonicalWord_eq]⟩

theorem RowPattern.ldReg (x : RegIdx) (y : RegIdx) : RowPattern.Statement (.ldReg x y) :=
  ⟨fun strict => ⟨⟨10, 0xF00F#16, 0x8000#16⟩, by cases strict <;> decide, rfl,
    (matches_maskHN (by decide)).2 (by simp [encode]; decide)⟩, by simp [encode, canonicalWord_eq]⟩

theorem RowPattern.orReg (x : RegIdx) (y : RegIdx) : RowPattern.Statement (.orReg x y) :=
  ⟨fun strict => ⟨⟨11, 0xF00F#16, 0x8001#16⟩, by cases strict <;> decide, rfl,
    (matches_maskHN (by decide)).2 (by simp [encode]; decide)⟩, by simp [encode, canonicalWord_eq]⟩

theorem RowPattern.andReg (x : RegIdx) (y : RegIdx) : RowPattern.Statement (.andReg x y) :=
  ⟨fun strict => ⟨⟨12, 0xF00F#16, 0x8002#16⟩, by cases strict <;> decide, rfl,
    (matches_maskHN (by decide)).2 (by simp [encode]; decide)⟩, by simp [encode, canonicalWord_eq]⟩

theorem RowPattern.xorReg (x : RegIdx) (y : RegIdx) : RowPattern.Statement (.xorReg x y) :=
  ⟨fun strict => ⟨⟨13, 0xF00F#16, 0x8003#16⟩, by cases strict <;> decide, rfl,
    (matches_maskHN (by decide)).2 (by simp [encode]; decide)⟩, by simp [encode, canonicalWord_eq]⟩

theorem RowPattern.addReg (x : RegIdx) (y : RegIdx) : RowPattern.Statement (.addReg x y) :=
  ⟨fun strict => ⟨⟨14, 0xF00F#16, 0x8004#16⟩, by cases strict <;> decide, rfl,
    (matches_maskHN (by decide)).2 (by simp [encode]; decide)⟩, by simp [encode, canonicalWord_eq]⟩

theorem RowPattern.subReg (x : RegIdx) (y : RegIdx) : RowPattern.Statement (.subReg x y) :=
  ⟨fun strict => ⟨⟨15, 0xF00F#16, 0x8005#16⟩, by cases strict <;> decide, rfl,
    (matches_maskHN (by decide)).2 (by simp [encode]; decide)⟩, by simp [encode, canonicalWord_eq]⟩

theorem RowPattern.shr (x : RegIdx) : RowPattern.Statement (.shr x) :=
  ⟨fun strict => ⟨⟨16, 0xF00F#16, 0x8006#16⟩, by cases strict <;> decide, rfl,
    (matches_maskHN (by decide)).2 (by simp [encode]; decide)⟩, by simp [encode, canonicalWord_eq]; rfl⟩

theorem RowPattern.subnReg (x : RegIdx) (y : RegIdx) : RowPattern.Statement (.subnReg x y) :=
  ⟨fun strict => ⟨⟨17, 0xF00F#16, 0x8007#16⟩, by cases strict <;> decide, rfl,
    (matches_maskHN (by decide)).2 (by simp [encode]; decide)⟩, by simp [encode, canonicalWord_eq]⟩

theorem RowPattern.shl (x : RegIdx) : RowPattern.Statement (.shl x) :=
  ⟨fun strict => ⟨⟨18, 0xF00F#16, 0x800E#16⟩, by cases strict <;> decide, rfl,
    (matches_maskHN (by decide)).2 (by simp [encode]; decide)⟩, by simp [encode, canonicalWord_eq]; rfl⟩

theorem RowPattern.sneReg (x : RegIdx) (y : RegIdx) : RowPattern.Statement (.sneReg x y) := by
  refine ⟨fun strict => ?_, by simp [encode, canonicalWord_eq]⟩
  cases strict
  · exact ⟨⟨19, 0xF000#16, 0x9000#16⟩, by decide, rfl, (matches_maskH (by decide)).2 (by simp [encode]; rfl)⟩
  · exact ⟨⟨19, 0xF00F#16, 0x9000#16⟩, by decide, rfl, (matches_maskHN (by decide)).2 (by simp [encode]; decide)⟩

theorem RowPattern.ldI (nnn : Addr12) : RowPattern.Statement (.ldI nnn) :=
  ⟨fun strict => ⟨⟨20, 0xF000#16, 0xA000#16⟩, by cases strict <;> decide, rfl,
    (matches_maskH (by decide)).2 (by simp [encode]; rfl)⟩, by simp [encode, canonicalWord_eq]⟩

theorem RowPattern.jpV0 (nnn : Addr12) : RowPattern.Statement (.jpV0 nnn) :=
  ⟨fun strict => ⟨⟨21, 0xF000#16, 0xB000#16⟩, by cases strict <;> decide, rfl,
    (matches_maskH (by decide)).2 (by simp [encode]; rfl)⟩, by simp [encode, canonicalWord_eq]⟩

theorem RowPattern.rnd (x : RegIdx) (kk : Byte) : RowPattern.Statement (.rnd x kk) :=
  ⟨fun strict => ⟨⟨22, 0xF000#16, 0xC000#16⟩, by cases strict <;> decide, rfl,
    (matches_maskH (by decide)).2 (by simp [encode]; rfl)⟩, by simp [encode, canonicalWord_eq]⟩

theorem RowPattern.drw (x : RegIdx) (y : RegIdx) (n : Fin 16) : RowPattern.Statement (.drw x y n) :=
  ⟨fun strict => ⟨⟨23, 0xF000#16, 0xD000#16⟩, by cases strict <;> decide, rfl,
    (matches_maskH (by decide)).2 (by simp [encode]; rfl)⟩, by simp [encode, canonicalWord_eq]⟩

theorem RowPattern.skp (x : RegIdx) : RowPattern.Statement (.skp x) :=
  ⟨fun strict => ⟨⟨24, 0xF0FF#16, 0xE09E#16⟩, by cases strict <;> decide, rfl,
    (matches_maskHKk (by decide)).2 (by simp [encode]; decide)⟩, by simp [encode, canonicalWord_eq]⟩

theorem RowPattern.sknp (x : RegIdx) : RowPattern.Statement (.sknp x) :=
  ⟨fun strict => ⟨⟨25, 0xF0FF#16, 0xE0A1#16⟩, by cases strict <;> decide, rfl,
    (matches_maskHKk (by decide)).2 (by simp [encode]; decide)⟩, by simp [encode, canonicalWord_eq]⟩

theorem RowPattern.ldFromDt (x : RegIdx) : RowPattern.Statement (.ldFromDt x) :=
  ⟨fun strict => ⟨⟨26, 0xF0FF#16, 0xF007#16⟩, by cases strict <;> decide, rfl,
    (matches_maskHKk (by decide)).2 (by simp [encode]; decide)⟩, by simp [encode, canonicalWord_eq]⟩

theorem RowPattern.ldKey (x : RegIdx) : RowPattern.Statement (.ldKey x) :=
  ⟨fun strict => ⟨⟨27, 0xF0FF#16, 0xF00A#16⟩, by cases strict <;> decide, rfl,
    (matches_maskHKk (by decide)).2 (by simp [encode]; decide)⟩, by simp [encode, canonicalWord_eq]⟩

theorem RowPattern.ldDt (x : RegIdx) : RowPattern.Statement (.ldDt x) :=
  ⟨fun strict => ⟨⟨28, 0xF0FF#16, 0xF015#16⟩, by cases strict <;> decide, rfl,
    (matches_maskHKk (by decide)).2 (by simp [encode]; decide)⟩, by simp [encode, canonicalWord_eq]⟩

theorem RowPattern.ldSt (x : RegIdx) : RowPattern.Statement (.ldSt x) :=
  ⟨fun strict => ⟨⟨29, 0xF0FF#16, 0xF018#16⟩, by cases strict <;> decide, rfl,
    (matches_maskHKk (by decide)).2 (by simp [encode]; decide)⟩, by simp [encode, canonicalWord_eq]⟩

theorem RowPattern.addI (x : RegIdx) : RowPattern.Statement (.addI x) :=
  ⟨fun strict => ⟨⟨30, 0xF0FF#16, 0xF01E#16⟩, by cases strict <;> decide, rfl,
    (matches_maskHKk (by decide)).2 (by simp [encode]; decide)⟩, by simp [encode, canonicalWord_eq]⟩

theorem RowPattern.ldFont (x : RegIdx) : RowPattern.Statement (.ldFont x) :=
  ⟨fun strict => ⟨⟨31, 0xF0FF#16, 0xF029#16⟩, by cases strict <;> decide, rfl,
    (matches_maskHKk (by decide)).2 (by simp [encode]; decide)⟩, by simp [encode, canonicalWord_eq]⟩

theorem RowPattern.ldBcd (x : RegIdx) : RowPattern.Statement (.ldBcd x) :=
  ⟨fun strict => ⟨⟨32, 0xF0FF#16, 0xF033#16⟩, by cases strict <;> decide, rfl,
    (matches_maskHKk (by decide)).2 (by simp [encode]; decide)⟩, by simp [encode, canonicalWord_eq]⟩

theorem RowPattern.storeRegs (x : RegIdx) : RowPattern.Statement (.storeRegs x) :=
  ⟨fun strict => ⟨⟨33, 0xF0FF#16, 0xF055#16⟩, by cases strict <;> decide, rfl,
    (matches_maskHKk (by decide)).2 (by simp [encode]; decide)⟩, by simp [encode, canonicalWord_eq]⟩

theorem RowPattern.loadRegs (x : RegIdx) : RowPattern.Statement (.loadRegs x) :=
  ⟨fun strict => ⟨⟨34, 0xF0FF#16, 0xF065#16⟩, by cases strict <;> decide, rfl,
    (matches_maskHKk (by decide)).2 (by simp [encode]; decide)⟩, by simp [encode, canonicalWord_eq]⟩

end Sys2Proof.Laws
end

