-- ==== Sys2Proof/Laws/Step.lean ====
section
/-! SUPPORT. What a step can do, once: the input it takes, and, where it answers a next state, which of the machine's
transitions that is. -/

namespace Sys2Proof.Machine

/-! ## The input a step takes -/

theorem step_of_cycle {s : State} {keys : BitVec 16} {r : Byte} {rest : List HostInput}
    (h : s.inputs = .cycle keys r :: rest) : step s = State.cycle { s with inputs := rest } keys r := by
  rw [step, State.nextStep, h]
  rfl

theorem step_of_nil {s : State} (h : s.inputs = []) :
    step s = State.cycle { s with draws := s.draws + 1 } (Config.freeKeys s.draws) (Config.freeRandom s.draws) := by
  rw [step, State.nextStep, h]

theorem step_of_tick {s : State} {rest : List HostInput} (h : s.inputs = .tick :: rest) :
    step s = State.tick { s with inputs := rest } := by
  rw [step, State.nextStep, h]
  rfl

theorem step_of_reset {s : State} {rest : List HostInput} (h : s.inputs = .reset :: rest) :
    step s = .next (State.restart { s with inputs := rest }) := by
  rw [step, State.nextStep, h]
  rfl

theorem step_of_load {s : State} {bytes : List Byte} {rest : List HostInput} (h : s.inputs = .load bytes :: rest) :
    step s = State.load { s with inputs := rest } bytes := by
  rw [step, State.nextStep, h]
  rfl

/-! ## What a step can answer -/

/-- Where a step answers next t, it was an executed instruction, a reported unknown opcode, a tick, a reset, an accepted or
a rejected load; u is the state with the input taken. -/
theorem step_next_cases {s t : State} (h : step s = .next t) :
    ∃ u : State, (∃ rest d, u = { s with inputs := rest, draws := d }) ∧
      ((∃ keys r i, s.halt = .running ∧ decode s.config.strictRegSkip s.fetchWord = .instr i ∧
          exec i (u.latch keys r).advance = .next t) ∨
       (∃ keys r op, s.halt = .running ∧ decode s.config.strictRegSkip s.fetchWord = .unknownOpcode op ∧
          t = (u.latch keys r).advance.reportUnknown op) ∨
       (s.halt = .running ∧ t = { u with dt := countDown u.dt, st := countDown u.st, launch := .launched }) ∨
       ((∃ rest, s.inputs = .reset :: rest) ∧ t = u.restart) ∨
       (∃ bytes : List Byte, s.launch = .fresh ∧ bytes.length ≤ Config.progMax ∧
          t = { u with mem := writeSeq u.mem Config.progBase bytes, loadResult := .ok, launch := .launched }) ∨
       (∃ bytes : List Byte, s.launch = .fresh ∧ Config.progMax < bytes.length ∧
          t = { u with loadResult := .romTooLarge bytes.length })) := by
  have cyc : ∀ (u : State) (keys : BitVec 16) (r : Byte), u.halt = s.halt → u.config = s.config →
      u.fetchWord = s.fetchWord → u.cycle keys r = .next t →
      (∃ keys r i, s.halt = .running ∧ decode s.config.strictRegSkip s.fetchWord = .instr i ∧
          exec i (u.latch keys r).advance = .next t) ∨
      (∃ keys r op, s.halt = .running ∧ decode s.config.strictRegSkip s.fetchWord = .unknownOpcode op ∧
          t = (u.latch keys r).advance.reportUnknown op) := by
    intro u keys r h1 h2 h3 hc
    obtain ⟨hr, ⟨i, hd, he⟩ | ⟨op, hd, he⟩⟩ := State.cycle_next hc
    · exact .inl ⟨keys, r, i, by rw [← h1]; exact hr, by rw [← h2, ← h3]; exact hd, he⟩
    · exact .inr ⟨keys, r, op, by rw [← h1]; exact hr, by rw [← h2, ← h3]; exact hd, he⟩
  cases hi : s.inputs with
  | nil =>
    rw [step_of_nil hi] at h
    refine ⟨{ s with draws := s.draws + 1 }, ⟨s.inputs, s.draws + 1, rfl⟩, ?_⟩
    obtain h | h := cyc { s with draws := s.draws + 1 } _ _ rfl rfl rfl h
    · exact .inl h
    · exact .inr (.inl h)
  | cons a rest =>
    refine ⟨{ s with inputs := rest }, ⟨rest, s.draws, rfl⟩, ?_⟩
    cases a with
    | cycle keys r =>
      rw [step_of_cycle hi] at h
      obtain h | h := cyc { s with inputs := rest } _ _ rfl rfl rfl h
      · exact .inl h
      · exact .inr (.inl h)
    | tick =>
      rw [step_of_tick hi, State.tick] at h
      split at h
      · cases h
      · next hr => exact .inr (.inr (.inl ⟨hr, by injection h with h; exact h.symm⟩))
    | reset =>
      rw [step_of_reset hi] at h
      exact .inr (.inr (.inr (.inl ⟨⟨rest, rfl⟩, by injection h with h; exact h.symm⟩)))
    | load bytes =>
      rw [step_of_load hi, State.load] at h
      split at h
      · cases h
      · next hf =>
        split at h
        · next hl => exact .inr (.inr (.inr (.inr (.inl ⟨bytes, hf, hl, by injection h with h; exact h.symm⟩))))
        · next hl =>
          exact .inr (.inr (.inr (.inr (.inr ⟨bytes, hf, by omega, by injection h with h; exact h.symm⟩))))

/-! ## Runs -/

theorem core_run_zero (s : State) : Sys2Proof.core.run 0 s = .next s := rfl

theorem core_run_succ (k : Nat) (s t : State) (h : step s = .next t) :
    Sys2Proof.core.run (k + 1) s = Sys2Proof.core.run k t := by
  have h' : Sys2Proof.core.step s = .next t := h
  simp only [Host.Core.run, h']

/-! ## The host's placing of one instruction -/

/-- A running machine with an opcode placed at PC and no other input pending fetches that opcode in its next step. -/
theorem fetchWord_withFetchWord {s : State} (hm : Memory.wf s.mem = true) (w : Nat) :
    (s.withFetchWord 16 w).fetchWord = BitVec.ofNat 16 w := by
  rw [State.withFetchWord, State.fetchWord_placeWord hm, tableWord]
  apply BitVec.eq_of_toNat_eq
  simp

end Sys2Proof.Machine
end

