-- ==== Sys2Proof/Tests/Slice0.lean ====
section
/-! SUPPORT. The model's own tests: the spec's encodings bit by bit, one-step vectors of 95_test_vectors.md (named by their
ids there), the smoke tests of WellFormed, and a witness for the hypotheses of every statement that has some. -/

namespace Sys2Proof.Machine

/-- s with V[k] = b (a helper of the tests). -/
def State.withV (s : State) (k : RegIdx) (b : Byte) : State := s.setReg k b

end Sys2Proof.Machine

namespace Sys2Proof.Tests

open Sys2Proof Sys2Proof.Machine

/-! ## WellFormed: an ill-formed term for each check -/

theorem test_canonicalWord_refuses_low_nibble_of_5xy : canonicalWord 0x5121#16 = false := by decide
theorem test_canonicalWord_refuses_low_nibble_of_9xy : canonicalWord 0x912F#16 = false := by decide
theorem test_canonicalWord_refuses_y_of_shr : canonicalWord 0x8016#16 = false := by decide
theorem test_canonicalWord_refuses_y_of_shl : canonicalWord 0x80FE#16 = false := by decide
theorem test_canonicalWord_accepts : canonicalWord 0x8014#16 = true ∧ canonicalWord 0x5120#16 = true := by decide
theorem test_glyphs_refuses_low_bits :
    ({ Config.default with fontGlyphs := Config.standardFont.set 7 0x21 } : Config).glyphsWellFormed = false := by decide
theorem test_glyphs_accepts_default : Config.default.glyphsWellFormed = true := by decide

/-! ## Decoding: words written out bit by bit from the patterns of the opcode table (30_encoding.md R76) -/

theorem test_decode_control_flow :
    decode false 0b0000000011100000#16 = .instr .cls ∧ decode false 0b0000000011101110#16 = .instr .ret ∧
    decode false 0b0001001000110100#16 = .instr (.jp 0x234#12) ∧
    decode false 0b0010101010111100#16 = .instr (.call 0xABC#12) ∧
    decode false 0b1011001100000000#16 = .instr (.jpV0 0x300#12) := by decide

theorem test_decode_skips :
    decode false 0b0011001100101010#16 = .instr (.seImm 3 0x2A#8) ∧
    decode false 0b0100001100101010#16 = .instr (.sneImm 3 0x2A#8) ∧
    decode false 0b0101000100100000#16 = .instr (.seReg 1 2) ∧
    decode false 0b1001000100100000#16 = .instr (.sneReg 1 2) ∧
    decode false 0b1110010110011110#16 = .instr (.skp 5) ∧
    decode false 0b1110010110100001#16 = .instr (.sknp 5) := by decide

theorem test_decode_moves :
    decode false 0b0110101000101111#16 = .instr (.ldImm 10 0x2F#8) ∧
    decode false 0b0111000011111111#16 = .instr (.addImm 0 0xFF#8) ∧
    decode false 0b1000001011110000#16 = .instr (.ldReg 2 15) := by decide

theorem test_decode_alu :
    decode false 0b1000000000010001#16 = .instr (.orReg 0 1) ∧
    decode false 0b1000000000010010#16 = .instr (.andReg 0 1) ∧
    decode false 0b1000010001000011#16 = .instr (.xorReg 4 4) ∧
    decode false 0b1000111100010100#16 = .instr (.addReg 15 1) ∧
    decode false 0b1000000011110101#16 = .instr (.subReg 0 15) ∧
    decode false 0b1000001000010110#16 = .instr (.shr 2) ∧
    decode false 0b1000000000010111#16 = .instr (.subnReg 0 1) ∧
    decode false 0b1000001100011110#16 = .instr (.shl 3) := by decide

theorem test_decode_index_memory :
    decode false 0b1010001100000000#16 = .instr (.ldI 0x300#12) ∧
    decode false 0b1111001000011110#16 = .instr (.addI 2) ∧
    decode false 0b1111101000101001#16 = .instr (.ldFont 10) ∧
    decode false 0b1111000000110011#16 = .instr (.ldBcd 0) ∧
    decode false 0b1111001101010101#16 = .instr (.storeRegs 3) ∧
    decode false 0b1111001101100101#16 = .instr (.loadRegs 3) := by decide

theorem test_decode_timers_random_draw_key :
    decode false 0b1111001100000111#16 = .instr (.ldFromDt 3) ∧
    decode false 0b1111001100010101#16 = .instr (.ldDt 3) ∧
    decode false 0b1111001100011000#16 = .instr (.ldSt 3) ∧
    decode false 0b1100001100001111#16 = .instr (.rnd 3 0x0F#8) ∧
    decode false 0b1101000100100101#16 = .instr (.drw 1 2 5) ∧
    decode false 0b1111010100001010#16 = .instr (.ldKey 5) := by decide

/-- T16, T17, T91 to T94. -/
theorem test_decode_unknown :
    decode false 0x5121#16 = .instr (.seReg 1 2) ∧ decode true 0x5121#16 = .unknownOpcode 0x5121#16 ∧
    decode false 0x0123#16 = .unknownOpcode 0x0123#16 ∧ decode false 0x0000#16 = .unknownOpcode 0x0000#16 ∧
    decode false 0x8128#16 = .unknownOpcode 0x8128#16 ∧ decode false 0xE19F#16 = .unknownOpcode 0xE19F#16 ∧
    decode false 0xF100#16 = .unknownOpcode 0xF100#16 := by decide

theorem test_decodeTableWord :
    decodeTableWord 16 0x332A = some (.seImm 3 0x2A#8) ∧ decodeTableWord 16 0x00EE = some .ret ∧
    decodeTableWord 16 0x0000 = none := by decide

theorem test_decodeBytes_high_byte_first :
    decodeBytes false [0x6A#8, 0x2F#8, 0x00#8] = some (.instr (.ldImm 10 0x2F#8), [0x00#8]) ∧
    decodeBytes false [0x6A#8] = none ∧ encodeBytes (.ldImm 10 0x2F#8) = [0x6A#8, 0x2F#8] := by decide

/-! ## One-step vectors -/

/-- The reset state under the settings c, with the opcode w at pc0, PC there, and one cycle to come. -/
def start (c : Config) (pc0 w : Word) (keys : BitVec 16 := 0) (r : Byte := 0) : State :=
  { State.reset with config := c, pc := pc0, mem := writeSeq [] pc0 [hiByte w, loByte w], inputs := [.cycle keys r] }

/-- The default settings. -/
def dflt : Config := Config.default

/-- The step from s answers a next state with the property. -/
def ran (s : State) (p : State → Bool) : Bool :=
  match step s with
  | .next t => p t
  | _ => false

/-- s with the bytes at a. -/
def withBytes (s : State) (a : Word) (bs : List Byte) : State := { s with mem := writeSeq s.mem a bs }

/-- How many pixels are on. -/
def pixelsOn (s : State) : Nat := (s.fb.toList.map fun col => (col.toList.filter id).length).sum

/-- T1. -/
theorem test_cls_T1 :
    ran { start dflt 0x200 0x00E0 with fb := (Framebuffer.clear.setPixel 0 0 true).setPixel 63 31 true }
      (fun t => pixelsOn t == 0 && t.pc == 0x202#16) = true := by decide

/-- T2. -/
theorem test_ret_T2 :
    ran { start dflt 0x30A 0x00EE with sp := 1, stack := (Vector.replicate 16 0).set 0 0x202 }
      (fun t => t.sp == 0 && t.pc == 0x202#16 && t.stack[0] == 0x202#16) = true := by decide

/-- T3: underflow is a fatal halt. -/
theorem test_ret_T3 :
    ran (start dflt 0x200 0x00EE)
      (fun t => t.halt == .halted .stackUnderflow 0x200#16 && t.pc == 0x202#16 && t.sp == 0) = true := by decide

/-- T4. -/
theorem test_jp_T4 : ran (start dflt 0x200 0x1234) (fun t => t.pc == 0x234#16) = true := by decide

/-- T7: overflow is a fatal halt; the stack is unchanged. -/
theorem test_call_T7 :
    ran { start dflt 0x200 0x2300 with sp := 16 }
      (fun t => t.halt == .halted .stackOverflow 0x200#16 && t.sp == 16 && t.pc == 0x202#16 &&
        t.stack == Vector.replicate 16 0) = true := by decide

/-- T8: the pushed PC wraps. -/
theorem test_call_T8 :
    ran { start dflt 0xFFFE 0x2300 with stack := Vector.replicate 16 7 }
      (fun t => t.stack[0] == 0#16 && t.sp == 1 && t.pc == 0x300#16) = true := by decide

/-- T10: the sum is stored unmasked. -/
theorem test_jpV0_T10 :
    ran ((start dflt 0x200 0xBFFF).withV 0 0xFF) (fun t => t.pc == 0x10FE#16) = true := by decide

/-- T11. -/
theorem test_seImm_T11 : ran ((start dflt 0x200 0x332A).withV 3 0x2A) (fun t => t.pc == 0x204#16) = true := by decide

/-- T24: a skip wraps mod 65536. -/
theorem test_seImm_T24 : ran (start dflt 0xFFFE 0x3000) (fun t => t.pc == 0x002#16) = true := by decide

/-- T13, T14. -/
theorem test_sneImm_T13_T14 :
    ran ((start dflt 0x200 0x432A).withV 3 0x2B) (fun t => t.pc == 0x204#16) = true ∧
    ran ((start dflt 0x200 0x432A).withV 3 0x2A) (fun t => t.pc == 0x202#16) = true := by decide

/-- T16: the low nibble is ignored under the default. -/
theorem test_seReg_T16 :
    ran (((start dflt 0x200 0x5121).withV 1 7).withV 2 7) (fun t => t.pc == 0x204#16) = true := by decide

/-- T17: with `STRICT_REG_SKIP = true` the word is unknown. -/
theorem test_seReg_T17 :
    ran (((start { dflt with strictRegSkip := true } 0x200 0x5121).withV 1 7).withV 2 7)
      (fun t => t.pc == 0x202#16 && t.event == .unknownOpcode 0x5121#16 0x200#16 && t.halt == .running) = true := by
  decide

/-- T18, T19. -/
theorem test_sneReg_T18_T19 :
    ran (((start dflt 0x200 0x9120).withV 1 7).withV 2 8) (fun t => t.pc == 0x204#16) = true ∧
    ran ((start dflt 0x200 0x9110).withV 1 7) (fun t => t.pc == 0x202#16) = true := by decide

/-- T20, T21: key 3 is bit 3 of the snapshot. -/
theorem test_skp_T20_T21 :
    ran ((start dflt 0x200 0xE59E (keys := 0x0008)).withV 5 3) (fun t => t.pc == 0x204#16) = true ∧
    ran ((start dflt 0x200 0xE59E (keys := 0x0010)).withV 5 3) (fun t => t.pc == 0x202#16) = true := by decide

/-- T22, T23. -/
theorem test_sknp_T22_T23 :
    ran ((start dflt 0x200 0xE5A1).withV 5 3) (fun t => t.pc == 0x204#16) = true ∧
    ran ((start dflt 0x200 0xE5A1 (keys := 0x0008)).withV 5 3) (fun t => t.pc == 0x202#16) = true := by decide

/-- T25. -/
theorem test_ldImm_T25 : ran (start dflt 0x200 0x6A2F) (fun t => t.reg 10 == 0x2F#8) = true := by decide

/-- T26: no carry flag. -/
theorem test_addImm_T26 :
    ran (((start dflt 0x200 0x7001).withV 0 0xFF).withV 15 0x55)
      (fun t => t.reg 0 == 0#8 && t.reg 15 == 0x55#8) = true := by decide

/-- T29. -/
theorem test_ldReg_T29 :
    ran ((start dflt 0x200 0x80F0).withV 15 1) (fun t => t.reg 0 == 1#8 && t.reg 15 == 1#8) = true := by decide

/-- T30. -/
theorem test_orReg_T30 :
    ran ((((start dflt 0x200 0x8011).withV 0 0xF0).withV 1 0x0F).withV 15 9)
      (fun t => t.reg 0 == 0xFF#8 && t.reg 15 == 9#8) = true := by decide

/-- T31. -/
theorem test_andReg_T31 :
    ran (((start dflt 0x200 0x8012).withV 0 0xF0).withV 1 0x3C) (fun t => t.reg 0 == 0x30#8) = true := by decide

/-- T32. -/
theorem test_xorReg_T32 :
    ran (((start dflt 0x200 0x8013).withV 0 0xF0).withV 1 0x3C) (fun t => t.reg 0 == 0xCC#8) = true := by decide

/-- T35, T36: a sum of 256 carries, a sum of 255 does not. -/
theorem test_addReg_T35_T36 :
    ran (((start dflt 0x200 0x8014).withV 0 0x80).withV 1 0x80) (fun t => t.reg 0 == 0#8 && t.reg 15 == 1#8) = true ∧
    ran (((start dflt 0x200 0x8014).withV 0 0x7F).withV 1 0x80) (fun t => t.reg 0 == 0xFF#8 && t.reg 15 == 0#8) = true := by
  decide

/-- T37, T38: VF as destination and as operand. -/
theorem test_addReg_T37_T38 :
    ran (((start dflt 0x200 0x8F14).withV 15 0xFF).withV 1 1) (fun t => t.reg 15 == 0#8) = true ∧
    ran (((start dflt 0x200 0x80F4).withV 0 0x10).withV 15 0xF5) (fun t => t.reg 0 == 5#8 && t.reg 15 == 1#8) = true := by
  decide

/-- T40, T41: borrow, and equal operands. -/
theorem test_subReg_T40_T41 :
    ran (((start dflt 0x200 0x8015).withV 0 3).withV 1 5) (fun t => t.reg 0 == 0xFE#8 && t.reg 15 == 0#8) = true ∧
    ran (((start dflt 0x200 0x8015).withV 0 5).withV 1 5) (fun t => t.reg 0 == 0#8 && t.reg 15 == 0#8) = true := by
  decide

/-- T42, T43: y = F in both settings of `ALU_OPERAND_READ`. -/
theorem test_subReg_T42_T43 :
    ran (((start dflt 0x200 0x80F5).withV 0 5).withV 15 3) (fun t => t.reg 0 == 4#8 && t.reg 15 == 1#8) = true ∧
    ran (((start { dflt with aluOperandRead := .latched } 0x200 0x80F5).withV 0 5).withV 15 3)
      (fun t => t.reg 0 == 2#8 && t.reg 15 == 1#8) = true := by decide

/-- T44, T46. -/
theorem test_subnReg_T44_T46 :
    ran (((start dflt 0x200 0x8017).withV 0 3).withV 1 5) (fun t => t.reg 0 == 2#8 && t.reg 15 == 1#8) = true ∧
    ran (((start dflt 0x200 0x80F7).withV 0 3).withV 15 5) (fun t => t.reg 0 == 0xFE#8 && t.reg 15 == 1#8) = true := by
  decide

/-- T48, T49: x = F in both settings. -/
theorem test_subnReg_T48_T49 :
    ran (((start dflt 0x200 0x8F17).withV 1 5).withV 15 3) (fun t => t.reg 15 == 4#8) = true ∧
    ran (((start { dflt with aluOperandRead := .latched } 0x200 0x8F17).withV 1 5).withV 15 3)
      (fun t => t.reg 15 == 2#8) = true := by decide

/-- T50, T51: Vy is ignored. -/
theorem test_shr_T50_T51 :
    ran ((start dflt 0x200 0x8006).withV 0 5) (fun t => t.reg 0 == 2#8 && t.reg 15 == 1#8) = true ∧
    ran (((start dflt 0x200 0x8016).withV 0 0x80).withV 1 3)
      (fun t => t.reg 0 == 0x40#8 && t.reg 15 == 0#8 && t.reg 1 == 3#8) = true := by decide

/-- T52, T53: x = F in both settings. -/
theorem test_shr_T52_T53 :
    ran ((start dflt 0x200 0x8F06).withV 15 3) (fun t => t.reg 15 == 0#8) = true ∧
    ran ((start { dflt with aluOperandRead := .latched } 0x200 0x8F06).withV 15 3) (fun t => t.reg 15 == 1#8) = true := by
  decide

/-- T54, T55. -/
theorem test_shl_T54_T55 :
    ran ((start dflt 0x200 0x800E).withV 0 0x81) (fun t => t.reg 0 == 2#8 && t.reg 15 == 1#8) = true ∧
    ran ((start dflt 0x200 0x800E).withV 0 0x41) (fun t => t.reg 0 == 0x82#8 && t.reg 15 == 0#8) = true := by decide

/-- T56, T57: x = F in both settings. -/
theorem test_shl_T56_T57 :
    ran ((start dflt 0x200 0x8F0E).withV 15 0x81) (fun t => t.reg 15 == 2#8) = true ∧
    ran ((start { dflt with aluOperandRead := .latched } 0x200 0x8F0E).withV 15 0x81)
      (fun t => t.reg 15 == 2#8) = true := by decide

/-- T58. -/
theorem test_ldI_T58 : ran { start dflt 0x200 0xA300 with i := 0xFFFF } (fun t => t.i == 0x300#16) = true := by decide

/-- T59, T60: not masked; wraps at 16 bits. -/
theorem test_addI_T59_T60 :
    ran (State.withV (State.withV { start dflt 0x200 0xF21E with i := 0xFFF } 2 2) 15 7)
      (fun t => t.i == 0x1001#16 && t.reg 15 == 7#8) = true ∧
    ran (State.withV { start dflt 0x200 0xF01E with i := 0xFFFF } 0 1) (fun t => t.i == 0#16) = true := by decide

/-- T62, T63: both settings of `FONT_DIGIT`. -/
theorem test_ldFont_T62_T63 :
    ran ((start dflt 0x200 0xF029).withV 0 0x1A) (fun t => t.i == 0x0D2#16) = true ∧
    ran ((start { dflt with fontDigit := .lowNibble } 0x200 0xF029).withV 0 0x1A) (fun t => t.i == 0x082#16) = true := by
  decide

/-- T66: the run wraps from 0xFFF to 0x000. -/
theorem test_ldBcd_T66 :
    ran (State.withV { start dflt 0x200 0xF033 with i := 0xFFF } 0 0xFF)
      (fun t => t.byteAt 0xFFF == 2#8 && t.byteAt 0 == 5#8 && t.byteAt 1 == 5#8 && t.i == 0xFFF#16) = true := by decide

/-- T67: one target in the font halts before any write. -/
theorem test_ldBcd_T67 :
    ran (State.withV { start dflt 0x200 0xF033 with i := 0x04F } 0 0xEA)
      (fun t => t.halt == .halted .fontWrite 0x200#16 && t.byteAt 0x04F == 0#8) = true := by decide

/-- T69: x = 0 stores one byte. -/
theorem test_storeRegs_T69 :
    ran (State.withV (State.withV { start dflt 0x200 0xF055 with i := 0x400 } 0 0xAB) 1 0x77)
      (fun t => t.byteAt 0x400 == 0xAB#8 && t.byteAt 0x401 == 0#8 && t.i == 0x400#16) = true := by decide

/-- T70, and the same store under `FONT_PROTECT = write` (20_memory.md R55). -/
theorem test_storeRegs_T70 :
    ran (State.withV { start dflt 0x200 0xF155 with i := 0x09F } 0 1)
      (fun t => t.halt == .halted .fontWrite 0x200#16 && t.byteAt 0x09F == 0x80#8) = true ∧
    ran (State.withV { start { dflt with fontProtect := .write } 0x200 0xF155 with i := 0x09F } 0 1)
      (fun t => t.halt == .running && t.byteAt 0x09F == 1#8 && t.byteAt 0x0A0 == 0#8) = true := by decide

/-- T71: the glyph of 0. -/
theorem test_loadRegs_T71 :
    ran { start dflt 0x200 0xF465 with i := 0x050 }
      (fun t => t.reg 0 == 0xF0#8 && t.reg 1 == 0x90#8 && t.reg 3 == 0x90#8 && t.reg 4 == 0xF0#8 && t.reg 5 == 0#8 &&
        t.i == 0x050#16) = true := by decide

/-- T73. -/
theorem test_ldFromDt_T73 :
    ran { start dflt 0x200 0xF307 with dt := 60 } (fun t => t.reg 3 == 0x3C#8 && t.dt == 60#8) = true := by decide

/-- T74. -/
theorem test_ldDt_T74 : ran ((start dflt 0x200 0xF315).withV 3 0x3C) (fun t => t.dt == 60#8 && t.st == 0#8) = true := by
  decide

/-- T75. -/
theorem test_ldSt_T75 : ran ((start dflt 0x200 0xF318).withV 3 2) (fun t => t.st == 2#8 && t.dt == 0#8) = true := by
  decide

/-- T76. -/
theorem test_rnd_T76 : ran (start dflt 0x200 0xC30F (r := 0xB7)) (fun t => t.reg 3 == 7#8) = true := by decide

/-- T80: the second draw clears and collides. -/
theorem test_drw_T80 :
    ran (withBytes { start dflt 0x200 0xD011 with
          i := 0x300, fb := (List.range 8).foldl (fun f c => f.setPixel (Fin.ofNat 64 c) 0 true) Framebuffer.clear }
        0x300 [0xFF])
      (fun t => pixelsOn t == 0 && t.reg 15 == 1#8) = true := by decide

/-- T82, T83: both settings of `SPRITE_EDGE`. -/
theorem test_drw_T82_T83 :
    ran (State.withV (withBytes { start dflt 0x200 0xD011 with i := 0x300 } 0x300 [0xFF]) 0 0x3C)
      (fun t => pixelsOn t == 4 && t.fb.pixel 60 0 && t.fb.pixel 63 0 && t.reg 15 == 0#8) = true ∧
    ran (State.withV (withBytes { start { dflt with spriteEdge := .wrap } 0x200 0xD011 with i := 0x300 } 0x300 [0xFF])
        0 0x3C)
      (fun t => pixelsOn t == 8 && t.fb.pixel 0 0 && t.fb.pixel 3 0 && t.fb.pixel 60 0) = true := by decide

/-- T86: the origin is read before VF is reset. -/
theorem test_drw_T86 :
    ran (State.withV (withBytes { start dflt 0x200 0xDF01 with i := 0x300 } 0x300 [0x80]) 15 8)
      (fun t => pixelsOn t == 1 && t.fb.pixel 8 0 && t.reg 15 == 0#8) = true := by decide

/-- T87: the row address wraps. -/
theorem test_drw_T87 :
    ran (withBytes { start dflt 0x200 0xD012 with i := 0xFFF } 0xFFF [0x80, 0x40])
      (fun t => pixelsOn t == 2 && t.fb.pixel 0 0 && t.fb.pixel 1 1) = true := by decide

/-- T88: the lowest key wins. -/
theorem test_ldKey_T88 :
    ran (start dflt 0x200 0xF50A (keys := 0x0208)) (fun t => t.reg 5 == 3#8 && t.pc == 0x202#16) = true := by decide

/-- T90: PC goes back over the wrap. -/
theorem test_ldKey_T90 : ran (start dflt 0xFFFE 0xF50A) (fun t => t.pc == 0xFFFE#16) = true := by decide

/-- T91: an unknown opcode is a reported no-op. -/
theorem test_unknown_T91 :
    ran ((start dflt 0x200 0x0123).withV 15 3)
      (fun t => t.pc == 0x202#16 && t.reg 15 == 3#8 && t.event == .unknownOpcode 0x0123#16 0x200#16) = true := by decide

/-- T95: an odd PC. -/
theorem test_fetch_T95 : ran (start dflt 0x201 0x6012) (fun t => t.pc == 0x203#16 && t.reg 0 == 0x12#8) = true := by
  decide

/-- S12: a timer at 0 stays at 0. -/
theorem test_tick_S12 :
    ran { State.reset with dt := 1, st := 0, inputs := [.tick] } (fun t => t.dt == 0#8 && t.st == 0#8) = true := by decide

/-- R232: the first byte goes to 0x200; R234: a second load is refused. -/
theorem test_load_R232_R234 :
    ran { State.reset with inputs := [.load [0x60#8, 0x05#8]] }
      (fun t => t.byteAt 0x200 == 0x60#8 && t.byteAt 0x201 == 5#8 && t.loadResult == .ok && t.launch == .launched) = true ∧
    ran { State.reset with launch := .launched, inputs := [.load []] } (fun _ => true) = false := by decide

/-- R200: the spec's numeric codes. -/
theorem test_codes_R200 :
    Event.ok.number = 0 ∧ (Event.unknownOpcode 0 0).number = 1 ∧ FatalCode.stackOverflow.number = 2 ∧
    FatalCode.stackUnderflow.number = 3 ∧ FatalCode.fontWrite.number = 4 ∧ (LoadResult.romTooLarge 0).number = 5 := by
  decide

/-- One instruction placed after reset is what the first step runs. -/
theorem test_withFetchWord :
    ran (State.reset.withFetchWord 16 0x6A2F) (fun t => t.reg 10 == 0x2F#8 && t.pc == 0x202#16) = true ∧
    ran ({ State.reset with inputs := [.tick] }.withFetchWord 16 0xA300)
      (fun t => t.i == 0x300#16 && t.inputs == [.tick]) = true := by decide

/-! ## Witnesses: the hypotheses of each statement can be met, clause by clause at a boundary of its range -/

theorem witness_EncodeOfDecode : decode true 0x5120#16 = .instr (.seReg 1 2) ∧ canonicalWord 0x5120#16 = true := by decide

theorem witness_DecoderAgrees :
    decode false 0x00E0#16 = .instr .cls ∧ (⟨34, 0xF0FF#16, 0xF065#16⟩ : OpcodeRow) ∈ opcodeMap false ∧
    OpcodeRow.matches ⟨34, 0xF0FF#16, 0xF065#16⟩ 0xFF65#16 = true := by decide

theorem witness_RowsDisjoint :
    (⟨1, 0xFFFF#16, 0x00E0#16⟩ : OpcodeRow) ∈ opcodeMap true ∧
    OpcodeRow.matches ⟨1, 0xFFFF#16, 0x00E0#16⟩ 0x00E0#16 = true := by decide

theorem witness_Fetch : (0x0FFF#16).toNat % 4096 = (0xFFFF#16).toNat % 4096 := by decide

/-- A cycle of a decoded instruction, with a listed input and with none. -/
theorem witness_StepRuns :
    (start dflt 0x200 0x6A2F).halt = .running ∧
    decode false (start dflt 0x200 0x6A2F).fetchWord = .instr (.ldImm 10 0x2F#8) ∧
    (start dflt 0x200 0x6A2F).inputs = .cycle 0 0 :: [] ∧
    ({ start dflt 0x200 0x6A2F with inputs := [] } : State).inputs = [] := by decide

theorem witness_UnknownOpcode :
    (start dflt 0xFFFF 0x0000).halt = .running ∧ (start dflt 0xFFFF 0x0000).inputs = .cycle 0 0 :: [] ∧
    decode dflt.strictRegSkip (start dflt 0xFFFF 0x0000).fetchWord = .unknownOpcode 0x0000#16 ∧
    State.reset.halt = .running ∧ State.reset.inputs = [] ∧
    decode State.reset.config.strictRegSkip State.reset.fetchWord = .unknownOpcode 0x0000#16 := by decide

theorem witness_CycleIgnores : State.reset.inputs = [] ∧ (start dflt 0x200 0x00E0).inputs = .cycle 0 0 :: [] := by decide

theorem witness_SkipSteps :
    (start dflt 0xFFFE 0x3000).halt = .running ∧ (start dflt 0xFFFE 0x3000).inputs = .cycle 0 0 :: [] ∧
    decode dflt.strictRegSkip (start dflt 0xFFFE 0x3000).fetchWord = .instr (.seImm 0 0) ∧
    skipPredicate (.seImm 0 0) { start dflt 0xFFFE 0x3000 with keys := 0 } = some true ∧
    skipPredicate (.sneImm 0 0) { start dflt 0xFFFE 0x3000 with keys := 0 } = some false := by decide

theorem witness_CallPushes : ({ State.reset with sp := 15 } : State).sp.val ≠ 16 ∧ State.reset.sp.val ≠ 16 := by decide

theorem witness_RetPops :
    ({ State.reset with sp := 1 } : State).sp.val ≠ 0 ∧ ({ State.reset with sp := 16 } : State).sp.val ≠ 0 := by decide

theorem witness_StackFaults : ({ State.reset with sp := 16 } : State).sp.val = 16 ∧ State.reset.sp.val = 0 := by decide

theorem witness_RetResumes :
    State.reset.sp.val ≠ 16 ∧ exec (.call 0x300#12) State.reset = .next (State.reset.callTo 0x300#16) :=
  ⟨by decide, rfl⟩

/-- Equal and unequal operands of the skips. -/
theorem witness_Skips :
    State.reset.reg 0 = 0#8 ∧ State.reset.reg 0 ≠ 0xFF#8 ∧ State.reset.reg 0 = State.reset.reg 15 ∧
    (State.reset.withV 15 1).reg 0 ≠ (State.reset.withV 15 1).reg 15 := by decide

/-- A key number at each end of both ranges. -/
theorem witness_KeySkips :
    (State.reset.reg 0).toNat ≤ 0xF ∧ ((State.reset.withV 0 0xF).reg 0).toNat ≤ 0xF ∧
    0xF < ((State.reset.withV 0 0x10).reg 0).toNat ∧ 0xF < ((State.reset.withV 0 0xFF).reg 0).toNat := by decide

/-- The destinations that are VF and those that are not. -/
theorem witness_FlagDestinations : (0 : RegIdx) ≠ VF ∧ (14 : RegIdx) ≠ VF ∧ (1 : RegIdx) ≠ 0 := by decide

theorem witness_FontDigit :
    Config.default.fontDigit = .full ∧
    ({ Config.default with fontDigit := .lowNibble } : Config).fontDigit = .lowNibble := by decide

/-- A store below the font, above it, and under `FONT_PROTECT = write`. -/
theorem witness_Stores :
    Memory.wf State.reset.mem = true ∧
    (∀ k < 3, inFont (({ State.reset with i := 0x04D } : State).i + BitVec.ofNat 16 k) = false) ∧
    (∀ k ≤ 15, inFont (({ State.reset with i := 0x0A0 } : State).i + BitVec.ofNat 16 k) = false) ∧
    ({ Config.default with fontProtect := .write } : Config).fontProtect = .write ∧
    (∀ k < 3, maskAddr 0x0A3#16 ≠ maskAddr (0x0A0#16 + BitVec.ofNat 16 k)) := by decide

/-- A store whose last byte is the font's first, and one whose first byte is the font's last. -/
theorem witness_FontStores :
    State.reset.config.fontProtect = .fault ∧
    (∃ k < 3, inFont (({ State.reset with i := 0x04E } : State).i + BitVec.ofNat 16 k) = true) ∧
    (∃ k ≤ 0, inFont (({ State.reset with i := 0x09F } : State).i + BitVec.ofNat 16 k) = true) := by decide

theorem witness_StoreThenLoad :
    Memory.wf ({ State.reset with i := 0x400 } : State).mem = true ∧
    (State.storeBytes { State.reset with i := 0x400 } 0x400 (State.regsUpTo { State.reset with i := 0x400 } 15)).halt =
      .running ∧
    exec (.storeRegs 15) { State.reset with i := 0x400 } =
      .next (State.storeBytes { State.reset with i := 0x400 } 0x400
        (State.regsUpTo { State.reset with i := 0x400 } 15)) :=
  ⟨by decide, by decide, rfl⟩

theorem witness_Tick :
    ({ State.reset with inputs := [.tick] } : State).halt = .running ∧
    ({ State.reset with inputs := [.tick] } : State).inputs = .tick :: [] := by decide

theorem witness_OnlyRnd : (∀ x kk, Instr.cls ≠ .rnd x kk) ∧ ∃ t, exec .cls State.reset = .next t :=
  ⟨fun _ _ => by simp, _, rfl⟩

theorem witness_OnlyKey :
    (∀ x, Instr.cls ≠ .skp x ∧ Instr.cls ≠ .sknp x ∧ Instr.cls ≠ .ldKey x) ∧ ∃ t, exec .cls State.reset = .next t :=
  ⟨fun _ => by simp, _, rfl⟩

/-- The least key is the first or the last of the sixteen, and no key at all. -/
theorem witness_KeyWait :
    ((0xFFFF#16).getLsbD 0 = true ∧ ∀ j < 0, (0xFFFF#16).getLsbD j = false) ∧
    ((0x8000#16).getLsbD 15 = true ∧ ∀ j < 15, (0x8000#16).getLsbD j = false) ∧
    (∀ k < 16, (0x0000#16).getLsbD k = false) := by decide

theorem witness_KeyWaitEnds :
    (start dflt 0x200 0xF20A).halt = .running ∧
    decode dflt.strictRegSkip (start dflt 0x200 0xF20A).fetchWord = .instr (.ldKey 2) ∧
    ({ start dflt 0x200 0xF20A with inputs := [.cycle 0 7, .cycle 0 9, .cycle 0x0008 1, .tick] } : State).inputs =
      [7#8, 9#8].map (fun b => .cycle 0#16 b) ++ .cycle 0x0008#16 1 :: [.tick] ∧
    (0x0008#16).getLsbD 3 = true ∧ ∀ i < 3, (0x0008#16).getLsbD i = false := by decide

/-- A pixel that a sprite covers, and one that it does not, at the corner of the screen. -/
theorem witness_Drw :
    (State.withV (State.withV (withBytes { State.reset with i := 0x300 } 0x300 [0x80]) 0 63) 1 31).SpriteCovers 0 1 1 63 31 ∧
    ¬ (State.withV (State.withV (withBytes { State.reset with i := 0x300 } 0x300 [0x80]) 0 63) 1 31).SpriteCovers
        0 1 1 0 0 := by
  constructor
  · exact ⟨0, by decide, 0, by decide, by decide, ⟨by decide, by decide⟩⟩
  · rintro ⟨row, hr, col, -, -, h⟩
    have h1 : 63 % 64 + col = 0 := h.1
    omega

theorem witness_DrawTwice :
    (0 : RegIdx) ≠ VF ∧ (1 : RegIdx) ≠ VF ∧
    ∃ t u, exec (.drw 0 1 15) State.reset = .next t ∧ exec (.drw 0 1 15) t = .next u :=
  ⟨by decide, by decide, _, _, rfl, rfl⟩

theorem witness_WhoWrites :
    mayWriteReg (.addReg 0 1) 2 = false ∧ (∃ t, exec (.addReg 0 1) State.reset = .next t) ∧
    (∃ t, exec (.ldI 0x300#12) State.reset = .next t ∧ t.i ≠ State.reset.i) :=
  ⟨by decide, ⟨_, rfl⟩, ⟨_, rfl, by decide⟩⟩

theorem witness_Fatal :
    State.reset.halt = .running ∧ ∃ t, exec .ret State.reset = .next t ∧ t.halt ≠ .running :=
  ⟨rfl, _, rfl, by decide⟩

theorem witness_NoStepChangesTheSettings :
    ∃ t, step { State.reset with inputs := [.tick] } = .next t ∧ t.config = State.reset.config :=
  ⟨_, rfl, rfl⟩

theorem witness_ResetInput :
    ({ State.reset with halt := .halted .fontWrite 0x200, inputs := [.reset] } : State).inputs = .reset :: [] ∧
    inFont 0x04F#16 = false ∧ inFont 0x0A0#16 = false := by decide

/-- Loads of no byte, and of the longest accepted and the shortest rejected length. -/
theorem witness_Load :
    ({ State.reset with inputs := [.load []] } : State).inputs = .load [] :: [] ∧ State.reset.launch = .fresh ∧
    Memory.wf State.reset.mem = true ∧ (List.replicate 3584 (0#8)).length ≤ 3584 ∧
    3584 < (List.replicate 3585 (0#8)).length ∧ maskAddr 0x1FF#16 < 0x200 ∧ 0x200 + 1 ≤ maskAddr 0x201#16 :=
  ⟨rfl, rfl, rfl, by rw [List.length_replicate], by rw [List.length_replicate]; decide, by decide, by decide⟩

theorem witness_LoadAfterLaunch :
    ({ State.reset with launch := .launched, inputs := [.load [1#8]] } : State).launch = .launched ∧
    ({ State.reset with launch := .launched, inputs := [.load [1#8]] } : State).inputs = .load [1#8] :: [] := by decide

/-- A halted machine with each kind of input that stops, and with reset. -/
theorem witness_Halted :
    ({ State.reset with halt := .halted .stackOverflow 0x200 } : State).halt = .halted .stackOverflow 0x200#16 ∧
    ({ State.reset with halt := .halted .stackOverflow 0x200 } : State).inputs = [] ∧
    (∃ keys r rest, (start dflt 0x200 0x00E0).inputs = .cycle keys r :: rest) ∧
    (∃ rest, ({ State.reset with inputs := [.tick] } : State).inputs = .tick :: rest) :=
  ⟨rfl, rfl, ⟨_, _, _, rfl⟩, ⟨_, rfl⟩⟩

theorem witness_OnlyReset :
    State.FreshIsReset { State.reset with
      halt := .halted .stackOverflow 0x200, launch := .launched, inputs := [.reset] } ∧
    ∃ t, step { State.reset with
      halt := .halted .stackOverflow 0x200, launch := .launched, inputs := [.reset] } = .next t :=
  ⟨fun h => by simp at h, _, rfl⟩

/-- Both invariants, at a state with a listed memory cell from which a step answers a next state. -/
theorem witness_Invariants :
    State.Inv (start dflt 0x200 0x6A2F) ∧
    State.FreshIsReset { State.reset with inputs := [.tick] } ∧
    (∃ t, step (start dflt 0x200 0x6A2F) = .next t) ∧ ∃ t, step { State.reset with inputs := [.tick] } = .next t := by
  refine ⟨by decide, fun _ => ⟨rfl, rfl, rfl, rfl, rfl, rfl, rfl, rfl, rfl, by decide⟩, ⟨_, rfl⟩, ⟨_, rfl⟩⟩

end Sys2Proof.Tests
end

section
/-! What no instruction writes, and from it that no step changes the settings (00_scope.md R19). -/

namespace Sys2Proof.Machine

/-- The frame of execution (10_state.md R45, R46; log entries 1, 2, 7): the input ports, the answer to the last load and
the model's own fields are the ones before. -/
theorem exec_eq_update {i : Instr} {s t : State} (h : exec i s = .next t) :
    t = { s with
      v := t.v, i := t.i, pc := t.pc, stack := t.stack, sp := t.sp, dt := t.dt, st := t.st, mem := t.mem, fb := t.fb,
      halt := t.halt, event := t.event } := by
  cases i <;> obtain rfl := Host.Outcome.next.inj h
  case seImm | sneImm | seReg | sneReg | skp | sknp => rw [State.skipIf_eq]
  case call => rw [State.callTo_eq]
  case ret => rw [State.returnFromCall_eq]
  case subReg | subnReg | shr | shl => rw [State.flagThenResult_eq]
  case ldBcd | storeRegs => rw [State.storeBytes_eq]
  case ldKey => cases lowestKey s.keys <;> rfl
  -- The other instructions only put new values into named fields.
  all_goals rfl

theorem exec_config {i : Instr} {s t : State} (h : exec i s = .next t) : t.config = s.config := by
  rw [exec_eq_update h]

/-- Settles O47: each transition of `step_next_cases` keeps the settings; for an executed instruction that is
`exec_config`, for the others the update does not name them. -/
theorem noStepChangesTheSettings : Obligations.NoStepChangesTheSettings := by
  intro s t h
  obtain ⟨u, ⟨rest, d, rfl⟩, hexec | hreport | htick | hreset | hload | hreject⟩ := step_next_cases h
  · obtain ⟨keys, r, i, -, -, he⟩ := hexec
    rw [exec_config he, State.advance_config, State.latch_config]
  · obtain ⟨keys, r, op, -, -, rfl⟩ := hreport
    rw [State.reportUnknown_config, State.advance_config, State.latch_config]
  · obtain ⟨-, rfl⟩ := htick
    rfl
  · obtain ⟨-, rfl⟩ := hreset
    rw [State.restart_config]
  · obtain ⟨bytes, -, -, rfl⟩ := hload
    rfl
  · obtain ⟨bytes, -, -, rfl⟩ := hreject
    rfl

end Sys2Proof.Machine
end

section
/-! Who may write what (10_state.md R31 to R41): once, by class of instruction, what a next state can differ in, and from
it which instruction writes which field. -/

namespace Sys2Proof.Machine

/-- What an executed instruction can change: the registers alone; PC too, where it jumps, skips or waits for a key; or the
fields of R33 to R41 that its class is listed for. -/
theorem exec_next_cases {i : Instr} {s t : State} (h : exec i s = .next t) :
    (∃ v, t = { s with v := v }) ∨
    (mayWritePc i = true ∧ ∃ v pc, t = { s with v := v, pc := pc }) ∨
    ((i = .cls ∨ ∃ x y n, i = .drw x y n) ∧ ∃ v fb, t = { s with v := v, fb := fb }) ∨
    (((∃ a, i = .ldI a) ∨ (∃ x, i = .addI x) ∨ ∃ x, i = .ldFont x) ∧ ∃ a, t = { s with i := a }) ∨
    ((∃ x, i = .ldDt x) ∧ ∃ b, t = { s with dt := b }) ∨
    ((∃ x, i = .ldSt x) ∧ ∃ b, t = { s with st := b }) ∨
    ((∃ a, i = .call a) ∧ ∃ stack sp pc halt event,
      t = { s with stack := stack, sp := sp, pc := pc, halt := halt, event := event }) ∨
    (i = .ret ∧ ∃ sp pc halt event, t = { s with sp := sp, pc := pc, halt := halt, event := event }) ∨
    (((∃ x, i = .ldBcd x) ∨ ∃ x, i = .storeRegs x) ∧ ∃ mem halt event,
      t = { s with mem := mem, halt := halt, event := event }) := by
  cases i <;> obtain rfl := Host.Outcome.next.inj h
  case ldImm | addImm | ldReg | orReg | andReg | xorReg | addReg | rnd | ldFromDt | loadRegs => exact .inl ⟨_, rfl⟩
  case subReg | subnReg | shr | shl => exact .inl ⟨_, State.flagThenResult_eq ..⟩
  all_goals right
  case jp | jpV0 => exact .inl ⟨rfl, _, _, rfl⟩
  case seImm | sneImm | seReg | sneReg | skp | sknp => exact .inl ⟨rfl, _, _, State.skipIf_eq ..⟩
  case ldKey => exact .inl ⟨rfl, by cases lowestKey s.keys <;> exact ⟨_, _, rfl⟩⟩
  all_goals right
  case cls => exact .inl ⟨.inl rfl, _, _, rfl⟩
  case drw => exact .inl ⟨.inr ⟨_, _, _, rfl⟩, _, _, rfl⟩
  all_goals right
  case ldI => exact .inl ⟨.inl ⟨_, rfl⟩, _, rfl⟩
  case addI => exact .inl ⟨.inr (.inl ⟨_, rfl⟩), _, rfl⟩
  case ldFont => exact .inl ⟨.inr (.inr ⟨_, rfl⟩), _, rfl⟩
  all_goals right
  case ldDt => exact .inl ⟨⟨_, rfl⟩, _, rfl⟩
  all_goals right
  case ldSt => exact .inl ⟨⟨_, rfl⟩, _, rfl⟩
  all_goals right
  case call => exact .inl ⟨⟨_, rfl⟩, _, _, _, _, _, State.callTo_eq ..⟩
  all_goals right
  case ret => exact .inl ⟨rfl, _, _, _, _, State.returnFromCall_eq ..⟩
  case ldBcd => exact .inr ⟨.inl ⟨_, rfl⟩, _, _, _, State.storeBytes_eq ..⟩
  case storeRegs => exact .inr ⟨.inr ⟨_, rfl⟩, _, _, _, State.storeBytes_eq ..⟩

/-- Settles O44: in each class of `exec_next_cases` the fields its update does not name are the ones before, and the class
is the one listed for those it names. -/
theorem specialRegistersHaveTheirOwnWriters : Obligations.SpecialRegistersHaveTheirOwnWriters := by
  intro i s t h
  obtain ⟨v, rfl⟩ | ⟨hpc, v, pc, rfl⟩ | ⟨-, v, fb, rfl⟩ | ⟨hi, a, rfl⟩ | ⟨hdt, b, rfl⟩ | ⟨hst, b, rfl⟩ |
    ⟨⟨a, rfl⟩, stack, sp, pc, halt, event, rfl⟩ | ⟨rfl, sp, pc, halt, event, rfl⟩ | ⟨-, mem, halt, event, rfl⟩ :=
    exec_next_cases h
  · simp
  · simp [hpc]
  · simp
  · simp [hi]
  · simp [hdt]
  · simp [hst]
  · simp [mayWritePc]
  · simp [mayWritePc]
  · simp

/-- Settles O45, by the same classes; none of their updates names a port, a setting or a field of the model's own. -/
theorem memoryScreenAndHaltHaveTheirOwnWriters : Obligations.MemoryScreenAndHaltHaveTheirOwnWriters := by
  intro i s t h
  obtain ⟨v, rfl⟩ | ⟨-, v, pc, rfl⟩ | ⟨hfb, v, fb, rfl⟩ | ⟨-, a, rfl⟩ | ⟨-, b, rfl⟩ | ⟨-, b, rfl⟩ |
    ⟨⟨a, rfl⟩, stack, sp, pc, halt, event, rfl⟩ | ⟨rfl, sp, pc, halt, event, rfl⟩ | ⟨hmem, mem, halt, event, rfl⟩ :=
    exec_next_cases h
  · simp
  · simp
  · simp [hfb]
  · simp
  · simp
  · simp
  · simp
  · simp
  · simp [hmem]

/-- Settles O43: an instruction without a register destination leaves V alone, and what the others write is V[x], VF or
V0 to Vx, which `mayWriteReg` excludes for k. -/
theorem registersChangeOnlyWhereNamed : Obligations.RegistersChangeOnlyWhereNamed := by
  intro i s t k h hk
  cases i <;> obtain rfl := Host.Outcome.next.inj h
  case cls | jp | jpV0 | ldI | addI | ldFont | ldDt | ldSt => rfl
  case seImm | sneImm | seReg | sneReg | skp | sknp => exact State.reg_congr (State.skipIf_v ..) k
  case call => exact State.reg_congr (State.callTo_v ..) k
  case ret => exact State.reg_congr (State.returnFromCall_v ..) k
  case ldBcd | storeRegs => exact State.reg_congr (State.storeBytes_v ..) k
  case ldImm | addImm | ldReg | orReg | andReg | xorReg | rnd | ldFromDt =>
    rw [State.reg_setReg, if_neg (by simpa [mayWriteReg] using hk)]
  case ldKey x =>
    have hx : k ≠ x := by simpa [mayWriteReg] using hk
    cases lowestKey s.keys with
    | none => rfl
    | some n => rw [State.reg_setReg, if_neg hx]
  case loadRegs => rw [State.reg_loadRegsFrom, if_neg (by simpa [mayWriteReg] using hk)]
  case drw => rw [State.reg_setFb, State.reg_setReg, if_neg (by simpa [mayWriteReg] using hk)]
  case addReg x _ =>
    obtain ⟨hx, hf⟩ : k ≠ x ∧ k ≠ VF := by simpa [mayWriteReg] using hk
    rw [State.reg_setReg, if_neg hx, State.reg_setReg, if_neg hf]
  case subReg x _ | subnReg x _ | shr x | shl x =>
    obtain ⟨hx, hf⟩ : k ≠ x ∧ k ≠ VF := by simpa [mayWriteReg] using hk
    simp only [State.reg_flagThenResult, if_neg hx, if_neg hf]

end Sys2Proof.Machine
end

section
/-! What the ports reach (10_state.md R42, R43): the random byte `RND` alone, the keypad the three key instructions alone,
and a cycle nothing of what they held before it. -/

namespace Sys2Proof.Machine

/-- Other values at the ports make no difference but at the ports themselves, where the instruction does not read the port
that differs (41_conditional_skip.md R114, R115; 46_random.md R161; 48_key_wait.md R180). -/
theorem exec_latch {i : Instr} {s t : State} {keys : BitVec 16} {r : Byte} (h : exec i s = .next t)
    (hrand : ∀ x kk, i = .rnd x kk → r = s.rand)
    (hkeys : ∀ x, i = .skp x ∨ i = .sknp x ∨ i = .ldKey x → keys = s.keys) :
    exec i (s.latch keys r) = .next (t.latch keys r) := by
  cases i <;> obtain rfl := Host.Outcome.next.inj h
  case rnd x kk =>
    obtain rfl := hrand x kk rfl
    rfl
  case skp x =>
    obtain rfl := hkeys x (.inl rfl)
    exact congrArg _ (State.skipIf_latch ..)
  case sknp x =>
    obtain rfl := hkeys x (.inr (.inl rfl))
    exact congrArg _ (State.skipIf_latch ..)
  case ldKey x =>
    obtain rfl := hkeys x (.inr (.inr rfl))
    rw [exec, execLdKey, State.latch_keys]
    cases lowestKey s.keys <;> rfl
  case seImm | sneImm | seReg | sneReg => exact congrArg _ (State.skipIf_latch ..)
  case call => exact congrArg _ (State.callTo_latch ..)
  case ret => exact congrArg _ (State.returnFromCall_latch ..)
  case subReg | subnReg | shr | shl => exact congrArg _ (State.flagThenResult_latch ..)
  case ldBcd | storeRegs => exact congrArg _ (State.storeBytes_latch ..)
  -- The other instructions read neither port, by computation.
  all_goals rfl

/-- Settles O37: `exec_latch` at the same keypad, which the instruction leaves at its port. -/
theorem onlyRndReadsTheRandomByte : Obligations.OnlyRndReadsTheRandomByte := by
  intro i s t r hi h
  have hkeys : t.keys = s.keys := by rw [exec_eq_update h]
  calc exec i { s with rand := r }
    _ = .next (t.latch s.keys r) := exec_latch h (fun x kk he => absurd he (hi x kk)) (fun _ _ => rfl)
    _ = .next { t with rand := r } := by rw [← hkeys]; rfl

/-- A cycle puts its own inputs at the ports and `Ok` into the event before it executes (20_memory.md R69,
30_encoding.md R74). -/
theorem State.cycle_ports (s : State) (k : BitVec 16) (b : Byte) (e : Event) (keys : BitVec 16) (r : Byte) :
    State.cycle { s with keys := k, rand := b, event := e } keys r = s.cycle keys r :=
  rfl

/-- Settles O11: the step is a cycle in both cases, and `State.cycle_ports` says it of a cycle. -/
theorem cycleIgnoresWhatThePortsHeld : Obligations.CycleIgnoresWhatThePortsHeld := by
  intro s k r e hin
  obtain hnil | ⟨keys, r', rest, hcons⟩ := hin
  · rw [step_of_nil hnil, step_of_nil (s := { s with keys := k, rand := r, event := e }) hnil]
    exact State.cycle_ports { s with draws := s.draws + 1 } k r e _ _
  · rw [step_of_cycle hcons, step_of_cycle (s := { s with keys := k, rand := r, event := e }) hcons]
    exact State.cycle_ports { s with inputs := rest } k r e keys r'

end Sys2Proof.Machine
end

section
/-! The return (40_control_flow.md R101). -/

namespace Sys2Proof.Machine

/-- Settles O16: with SP not 0, `returnFromCall` is the pop and not the underflow. -/
theorem retPopsTheReturnAddress : Obligations.RetPopsTheReturnAddress := by
  refine ⟨by decide, fun s hsp => ?_⟩
  obtain ⟨h16, h17, -, he⟩ | ⟨h0, -⟩ := s.returnFromCall_cases
  · exact ⟨_, congrArg Host.Outcome.next he, Nat.sub_add_cancel (Nat.pos_of_ne_zero hsp),
      Vector.getElem?_eq_getElem h16, rfl, fun _ => rfl⟩
  · exact absurd h0 hsp

end Sys2Proof.Machine
end

section
/-! The values of reset (70_reset_and_hazards.md R230), what an accepted load writes (R232), stores into the font
(20_memory.md R55), and from them the invariant of memory and font over every step. -/

namespace Sys2Proof.Machine

/-! ## Reset -/

/-- With the default glyphs reset lists no cell, so restarting the reset state gives it back. -/
theorem State.restart_reset : State.reset.restart = State.reset := by
  have hfont : Memory.withFont Config.standardFont = [] := by decide
  exact congrArg (fun m => { State.reset with mem := m }) hfont

theorem State.reg_restart (s : State) (k : RegIdx) : s.restart.reg k = 0#8 :=
  Vector.getElem_replicate ..

theorem State.restart_fontIntact (s : State) : s.restart.FontIntact :=
  memRead_withFont_font _

theorem State.restart_inv (s : State) : s.restart.Inv :=
  ⟨withFont_wf _, fun _ => s.restart_fontIntact⟩

/-- Settles O49: the step is `State.restart`, whose registers, screen and memory are read off field by field. -/
theorem resetInputGivesTheResetState : Obligations.ResetInputGivesTheResetState := by
  intro s rest hin
  refine ⟨_, step_of_reset hin, State.reg_restart _, rfl, rfl, fun j => ?_, rfl, rfl, rfl, fun c r => ?_, rfl,
    memRead_withFont_other _, State.restart_fontIntact _, rfl, rfl⟩
  · exact Vector.getElem_replicate ..
  · exact Framebuffer.pixel_clear c r

/-- Settles O48: the input reset, sent to the reset state, answers the reset state again, so the values are those of
O49. -/
theorem resetStateHasItsValues : Obligations.ResetStateHasItsValues := by
  have hreset : step { State.reset with inputs := [.reset] } = .next State.reset :=
    (step_of_reset rfl).trans (congrArg Host.Outcome.next State.restart_reset)
  obtain ⟨t, ht, hv, hi, hpc, hstack, hsp, hdt, hst, hfb, hhalt, hother, hfont, -, -⟩ :=
    resetInputGivesTheResetState { State.reset with inputs := [.reset] } [] rfl
  obtain rfl := Host.Outcome.next.inj (hreset.symm.trans ht)
  exact ⟨hv, hi, hpc, hstack, hsp, hdt, hst, hfb, hhalt, hother, hfont⟩

/-- Settles O56: the reset state is a restarted state. -/
theorem resetHasMemoryAndFontIntact : Obligations.ResetHasMemoryAndFontIntact := by
  unfold Obligations.ResetHasMemoryAndFontIntact
  rw [← State.restart_reset]
  exact State.restart_inv _

/-! ## Load -/

/-- The program area ends at the last address, so a load that fits does not wrap: what lies below 0x200 or past its last
byte is not written. -/
theorem memRead_writeSeq_progBase_outside (m : Memory) {bytes : List Byte} (hl : bytes.length ≤ Config.progMax)
    {c : Word} (hc : maskAddr c < 0x200 ∨ 0x200 + bytes.length ≤ maskAddr c) :
    memRead (writeSeq m Config.progBase bytes) c = memRead m c := by
  refine memRead_writeSeq_outside _ _ _ _ (Nat.le_trans hl (by decide)) ?_
  have hmax : bytes.length ≤ 3584 := hl
  have hlt := c.isLt
  simp only [maskAddr_eq_mod, BitVec.toNat_sub, BitVec.toNat_ofNat] at hc ⊢
  omega

theorem State.load_accepted {s : State} {bytes : List Byte} (hf : s.launch = .fresh)
    (hl : bytes.length ≤ Config.progMax) :
    s.load bytes =
      .next { s with mem := writeSeq s.mem Config.progBase bytes, loadResult := .ok, launch := .launched } := by
  simp only [State.load, hf, if_pos hl]

/-- Settles O50: the step is the accepted load, and a run of bytes reads back inside and leaves what is outside. -/
theorem loadPlacesTheBytesAtProgramBase : Obligations.LoadPlacesTheBytesAtProgramBase := by
  intro s bytes rest hf hin hm hl
  refine ⟨_, (step_of_load hin).trans (State.load_accepted hf hl), rfl, fun k hk => ?_, fun c hc => ?_, rfl⟩
  · exact memRead_writeSeq_at hm _ bytes k hk (Nat.le_trans hl (by decide))
  · exact memRead_writeSeq_progBase_outside s.mem hl hc

/-! ## Stores into the font -/

/-- Under `FONT_PROTECT = fault` a store with a font target is the fatal halt and nothing else. -/
theorem State.storeBytes_of_inFont {s : State} {a : Word} {bs : List Byte} (hp : s.config.fontProtect = .fault)
    (h : ∃ k < bs.length, inFont (a + BitVec.ofNat 16 k) = true) : s.storeBytes a bs = s.raiseFatal .fontWrite :=
  if_pos ((s.storeFaults_iff a bs.length).2 ⟨hp, h⟩)

/-- Settles O31: `LD B` stores 3 bytes and `LD [I]` x + 1, and either store is the fatal halt. -/
theorem fontStoresHaltAndWriteNothing : Obligations.FontStoresHaltAndWriteNothing := by
  intro s x hp
  refine ⟨fun h => ?_, fun ⟨k, hk, hin⟩ => ?_⟩
  · exact ⟨_, congrArg Host.Outcome.next (State.storeBytes_of_inFont hp h), rfl, rfl, rfl⟩
  · have hlen : k < (s.regsUpTo x).length := by
      rw [State.regsUpTo_length]
      exact Nat.lt_succ_of_le hk
    exact ⟨_, congrArg Host.Outcome.next (State.storeBytes_of_inFont hp ⟨k, hlen, hin⟩), rfl, rfl, rfl⟩

/-! ## The invariant of memory and font -/

/-- The invariant speaks of memory and the settings alone. -/
theorem State.Inv.congr {s t : State} (hs : s.Inv) (hmem : t.mem = s.mem) (hconfig : t.config = s.config) : t.Inv := by
  obtain ⟨hwf, hfont⟩ := hs
  refine ⟨by rwa [hmem], fun hp d => ?_⟩
  rw [hconfig] at hp
  simp only [State.byteAt, hmem, hconfig]
  exact hfont hp d

theorem State.Inv.storeBytes {s : State} (hs : s.Inv) (a : Word) {bs : List Byte} (hl : bs.length ≤ 4096) :
    (s.storeBytes a bs).Inv := by
  obtain ⟨hwf, hfont⟩ := hs
  refine ⟨State.storeBytes_wf hwf a bs, fun hp d => ?_⟩
  rw [State.storeBytes_config] at hp
  simp only [s.storeBytes_byteAt_font a _ bs hl hp (inFont_fontBase_add d.val d.isLt), State.storeBytes_config]
  exact hfont hp d

/-- The font lies below the program area, so a load that fits does not reach it. -/
theorem State.Inv.writeSeq_progBase {s : State} (hs : s.Inv) {bytes : List Byte}
    (hl : bytes.length ≤ Config.progMax) : (s.setMem (writeSeq s.mem Config.progBase bytes)).Inv := by
  obtain ⟨hwf, hfont⟩ := hs
  refine ⟨writeSeq_wf hwf _ bytes, fun hp d => ?_⟩
  have hlast := ((inFont_iff _).1 (inFont_fontBase_add d.val d.isLt)).2
  exact (memRead_writeSeq_progBase_outside s.mem hl (.inl (by omega))).trans (hfont hp d)

/-- An executed instruction leaves memory alone or is a store of at most 16 bytes at I. -/
theorem exec_mem_cases {i : Instr} {s t : State} (h : exec i s = .next t) :
    t.mem = s.mem ∨ ∃ bs, bs.length ≤ 16 ∧ t = s.storeBytes s.i bs := by
  by_cases hm : t.mem = s.mem
  · exact .inl hm
  · obtain ⟨hwriters, -⟩ := memoryScreenAndHaltHaveTheirOwnWriters i s t h
    obtain ⟨x, rfl⟩ | ⟨x, rfl⟩ := hwriters hm
    · exact .inr ⟨decimalDigits (s.reg x), by simp, (Host.Outcome.next.inj h).symm⟩
    · exact .inr ⟨s.regsUpTo x, by simp, (Host.Outcome.next.inj h).symm⟩

theorem exec_inv {i : Instr} {s t : State} (hs : s.Inv) (h : exec i s = .next t) : t.Inv := by
  obtain hmem | ⟨bs, hl, rfl⟩ := exec_mem_cases h
  · exact hs.congr hmem (exec_config h)
  · exact hs.storeBytes s.i (Nat.le_trans hl (by decide))

/-- Settles O55: of the transitions of `step_next_cases` only an executed store, a reset and an accepted load write
memory; the first two have the invariant by `exec_inv` and `State.restart_inv`, the load stays above the font. -/
theorem stepKeepsMemoryAndFont : Obligations.StepKeepsMemoryAndFont := by
  intro s t hs h
  obtain ⟨u, ⟨rest, d, rfl⟩, hexec | hreport | htick | hreset | hload | hreject⟩ := step_next_cases h
  · obtain ⟨keys, r, i, -, -, he⟩ := hexec
    refine exec_inv ?_ he
    exact hs.congr rfl rfl
  · obtain ⟨keys, r, op, -, -, rfl⟩ := hreport
    exact hs.congr rfl rfl
  · obtain ⟨-, rfl⟩ := htick
    exact hs.congr rfl rfl
  · obtain ⟨-, rfl⟩ := hreset
    exact State.restart_inv _
  · obtain ⟨bytes, -, hl, rfl⟩ := hload
    exact (hs.writeSeq_progBase hl).congr rfl rfl
  · obtain ⟨bytes, -, -, rfl⟩ := hreject
    exact hs.congr rfl rfl

end Sys2Proof.Machine
end

section
/-! What the decoder gives for an assembled word, and so for the word of an instruction (30_encoding.md R70 to R86). -/

namespace Sys2Proof

/-! ## The families whose decoder reads more than the high nibble (R77) -/

section
variable {w : Word} (strict : Bool)

theorem decode_of_fieldH_5 (h : fieldH w = 0x5#4) : decode strict w = decodeRegSkip strict .seReg w := by
  simp only [decode, h]

theorem decode_of_fieldH_8 (h : fieldH w = 0x8#4) : decode strict w = decode8 w := by simp only [decode, h]

theorem decode_of_fieldH_9 (h : fieldH w = 0x9#4) : decode strict w = decodeRegSkip strict .sneReg w := by
  simp only [decode, h]

theorem decode_of_fieldH_E (h : fieldH w = 0xE#4) : decode strict w = decodeE w := by simp only [decode, h]

theorem decode_of_fieldH_F (h : fieldH w = 0xF#4) : decode strict w = decodeF w := by simp [decode, h]

end

/-! ## Decoding an assembled word -/

/-- The low nibble of families 0x5 and 0x9 is read only under `STRICT_REG_SKIP` (R82). -/
theorem decodeRegSkip_eq_ite (strict : Bool) (f : RegIdx → RegIdx → Instr) (w : Word) :
    decodeRegSkip strict f w =
      if strict = true ∧ fieldN w ≠ 0#4 then .unknownOpcode w else .instr (f (fieldX w) (fieldY w)) := by
  simp [decodeRegSkip]

theorem decode_wordXYN_5 (strict : Bool) (x y : RegIdx) (n : BitVec 4) :
    decode strict (wordXYN 0x5#4 x y n) =
      if strict = true ∧ n ≠ 0#4 then .unknownOpcode (wordXYN 0x5#4 x y n) else .instr (.seReg x y) := by
  rw [decode_of_fieldH_5 strict (fieldH_wordXYN ..), decodeRegSkip_eq_ite, fieldN_wordXYN, fieldX_wordXYN,
    fieldY_wordXYN]

theorem decode_wordXYN_9 (strict : Bool) (x y : RegIdx) (n : BitVec 4) :
    decode strict (wordXYN 0x9#4 x y n) =
      if strict = true ∧ n ≠ 0#4 then .unknownOpcode (wordXYN 0x9#4 x y n) else .instr (.sneReg x y) := by
  rw [decode_of_fieldH_9 strict (fieldH_wordXYN ..), decodeRegSkip_eq_ite, fieldN_wordXYN, fieldX_wordXYN,
    fieldY_wordXYN]

/-- The decoder reads back the fields the encoder wrote, family by family. -/
theorem decode_encode (strict : Bool) (i : Instr) : decode strict (encode i) = .instr i := by
  cases i
  case cls | ret => cases strict <;> decide
  case jp | call | ldI | jpV0 => simp only [encode, decode, fieldH_wordNnn, fieldNnn_wordNnn]
  case seImm | sneImm | ldImm | addImm | rnd =>
    simp only [encode, decode, fieldH_wordXKk, fieldX_wordXKk, fieldKk_wordXKk]
  case seReg => rw [encode, decode_wordXYN_5, if_neg (by simp)]
  case sneReg => rw [encode, decode_wordXYN_9, if_neg (by simp)]
  case ldReg | orReg | andReg | xorReg | addReg | subReg | shr | subnReg | shl =>
    rw [encode, decode_of_fieldH_8 strict (fieldH_wordXYN ..)]
    simp only [decode8, fieldX_wordXYN, fieldY_wordXYN, fieldN_wordXYN]
  case drw =>
    simp only [encode, decode, fieldH_wordXYN, fieldX_wordXYN, fieldY_wordXYN, fieldCount_wordXYN, toFin_nibble]
  case skp | sknp =>
    rw [encode, decode_of_fieldH_E strict (fieldH_wordXKk ..)]
    simp only [decodeE, fieldX_wordXKk, fieldKk_wordXKk]
  case ldFromDt | ldKey | ldDt | ldSt | addI | ldFont | ldBcd | storeRegs | loadRegs =>
    rw [encode, decode_of_fieldH_F strict (fieldH_wordXKk ..)]
    simp only [decodeF, fieldX_wordXKk, fieldKk_wordXKk]

/-- Settles O1, which is `decode_encode`. -/
theorem decodeOfEncodeIsTheInstruction : Obligations.DecodeOfEncodeIsTheInstruction :=
  decode_encode

end Sys2Proof
end

section
/-! Which words decode to an instruction and which do not (30_encoding.md R76 to R83). -/

namespace Sys2Proof

/-! ## A word from what it is known to hold -/

section
variable {w : Word} {h : BitVec 4}

theorem eq_wordNnn (hh : fieldH w = h) : w = wordNnn h (fieldNnn w) := by
  rw [← hh, wordNnn_fields]

theorem eq_wordXKk {kk : Byte} (hh : fieldH w = h) (hk : fieldKk w = kk) : w = wordXKk h (fieldX w) kk := by
  rw [← hh, ← hk, wordXKk_fields]

theorem eq_wordXYN {n : BitVec 4} (hh : fieldH w = h) (hn : fieldN w = n) :
    w = wordXYN h (fieldX w) (fieldY w) n := by
  rw [← hh, ← hn, wordXYN_fields]

end

/-! ## The words of an instruction -/

/-- The word stands for the instruction: it is its encoding, or differs from it in the bits the instruction ignores, the
low nibble of `5xy?` and `9xy?` without `STRICT_REG_SKIP` (R82) and the y field of `8xy6` and `8xyE` (R136, R137). -/
inductive IsWordOf (strict : Bool) (w : Word) : Instr → Prop
  | encoding {i : Instr} (h : w = encode i) : IsWordOf strict w i
  | seReg {x y : RegIdx} {n : BitVec 4} (hs : strict = false) (h : w = wordXYN 0x5#4 x y n) :
      IsWordOf strict w (.seReg x y)
  | sneReg {x y : RegIdx} {n : BitVec 4} (hs : strict = false) (h : w = wordXYN 0x9#4 x y n) :
      IsWordOf strict w (.sneReg x y)
  | shr {x y : RegIdx} (h : w = wordXYN 0x8#4 x y 0x6#4) : IsWordOf strict w (.shr x)
  | shl {x y : RegIdx} (h : w = wordXYN 0x8#4 x y 0xE#4) : IsWordOf strict w (.shl x)

section
variable {strict : Bool} {w : Word} {i : Instr}

theorem isWordOf_of_decode0 (hd : decode0 w = .instr i) : IsWordOf strict w i := by
  unfold decode0 at hd
  split at hd
  · next h => cases hd; exact .encoding h
  · split at hd
    · next h => cases hd; exact .encoding h
    · cases hd

/-- Where a register skip decodes, its low nibble is not read or is 0. -/
theorem decodeRegSkip_eq_instr {f : RegIdx → RegIdx → Instr} (hd : decodeRegSkip strict f w = .instr i) :
    i = f (fieldX w) (fieldY w) ∧ (strict = false ∨ fieldN w = 0#4) := by
  rw [decodeRegSkip_eq_ite] at hd
  split at hd
  · cases hd
  · next h =>
    cases hd
    exact ⟨rfl, by simpa [imp_iff_not_or] using h⟩

theorem isWordOf_of_decode8 (hh : fieldH w = 0x8#4) (hd : decode8 w = .instr i) : IsWordOf strict w i := by
  unfold decode8 at hd
  split at hd
  case h_7 hn => cases hd; exact .shr (eq_wordXYN hh hn)
  case h_9 hn => cases hd; exact .shl (eq_wordXYN hh hn)
  case h_10 => cases hd
  all_goals next hn => cases hd; exact .encoding (eq_wordXYN hh hn)

theorem isWordOf_of_decodeE (hh : fieldH w = 0xE#4) (hd : decodeE w = .instr i) : IsWordOf strict w i := by
  unfold decodeE at hd
  split at hd
  case h_3 => cases hd
  all_goals next hk => cases hd; exact .encoding (eq_wordXKk hh hk)

theorem isWordOf_of_decodeF (hh : fieldH w = 0xF#4) (hd : decodeF w = .instr i) : IsWordOf strict w i := by
  unfold decodeF at hd
  split at hd
  case h_10 => cases hd
  all_goals next hk => cases hd; exact .encoding (eq_wordXKk hh hk)

/-- The nibble of the decoder's last branch. -/
theorem eq_F_of_not_mem : ∀ h : BitVec 4,
    h ∉ [0x0#4, 0x1#4, 0x2#4, 0x3#4, 0x4#4, 0x5#4, 0x6#4, 0x7#4, 0x8#4, 0x9#4, 0xA#4, 0xB#4, 0xC#4, 0xD#4, 0xE#4] →
      h = 0xF#4 := by
  decide

theorem isWordOf_of_decode (hd : decode strict w = .instr i) : IsWordOf strict w i := by
  unfold decode at hd
  split at hd
  case h_1 => exact isWordOf_of_decode0 hd
  case h_2 hh | h_3 hh | h_11 hh | h_12 hh => cases hd; exact .encoding (eq_wordNnn hh)
  case h_4 hh | h_5 hh | h_7 hh | h_8 hh | h_13 hh => cases hd; exact .encoding (eq_wordXKk hh rfl)
  case h_6 hh =>
    obtain ⟨rfl, hs | hn⟩ := decodeRegSkip_eq_instr hd
    · exact .seReg hs (eq_wordXYN hh rfl)
    · exact .encoding (eq_wordXYN hh hn)
  case h_9 hh => exact isWordOf_of_decode8 hh hd
  case h_10 hh =>
    obtain ⟨rfl, hs | hn⟩ := decodeRegSkip_eq_instr hd
    · exact .sneReg hs (eq_wordXYN hh rfl)
    · exact .encoding (eq_wordXYN hh hn)
  case h_14 hh => cases hd; exact .encoding (eq_wordXYN hh rfl)
  case h_15 hh => exact isWordOf_of_decodeE hh hd
  case h_16 => exact isWordOf_of_decodeF (eq_F_of_not_mem _ (by simp_all)) hd

/-- The words that decode to an instruction are those that stand for it. -/
theorem decode_eq_instr_iff : decode strict w = .instr i ↔ IsWordOf strict w i := by
  refine ⟨isWordOf_of_decode, fun h => ?_⟩
  cases h with
  | encoding h => rw [h, decode_encode]
  | seReg hs h => rw [h, decode_wordXYN_5, if_neg (by simp [hs])]
  | sneReg hs h => rw [h, decode_wordXYN_9, if_neg (by simp [hs])]
  | shr h | shl h =>
    rw [h, decode_of_fieldH_8 strict (fieldH_wordXYN ..)]
    simp only [decode8, fieldN_wordXYN, fieldX_wordXYN]

end

/-! ## The words of no instruction -/

/-- R83's list of the words that match no pattern. -/
def IsUnknownWord (strict : Bool) (w : Word) : Prop :=
  (fieldH w = 0x0#4 ∧ w ≠ 0x00E0#16 ∧ w ≠ 0x00EE#16) ∨
  (fieldH w = 0x8#4 ∧ fieldN w ∈ [0x8#4, 0x9#4, 0xA#4, 0xB#4, 0xC#4, 0xD#4, 0xF#4]) ∨
  (fieldH w = 0xE#4 ∧ fieldKk w ≠ 0x9E#8 ∧ fieldKk w ≠ 0xA1#8) ∨
  (fieldH w = 0xF#4 ∧ fieldKk w ∉ [0x07#8, 0x0A#8, 0x15#8, 0x18#8, 0x1E#8, 0x29#8, 0x33#8, 0x55#8, 0x65#8]) ∨
  (strict = true ∧ (fieldH w = 0x5#4 ∨ fieldH w = 0x9#4) ∧ fieldN w ≠ 0x0#4)

section
variable {strict : Bool} {w op : Word}

theorem decode0_eq_unknown_iff : decode0 w = .unknownOpcode op ↔ op = w ∧ w ≠ 0x00E0#16 ∧ w ≠ 0x00EE#16 := by
  unfold decode0
  split
  · next h => simp [h]
  · split
    · next h => simp [h]
    · next h h' => simp [h, h', eq_comm]

theorem decodeRegSkip_eq_unknown_iff {f : RegIdx → RegIdx → Instr} :
    decodeRegSkip strict f w = .unknownOpcode op ↔ op = w ∧ strict = true ∧ fieldN w ≠ 0#4 := by
  rw [decodeRegSkip_eq_ite]
  split
  · next h => simp [h, eq_comm]
  · next h => simp [h]

/-- The sub-op selectors of no instruction are those that are none of the nine. -/
theorem mem_unusedSubOps {n : BitVec 4} :
    n ∈ [0x8#4, 0x9#4, 0xA#4, 0xB#4, 0xC#4, 0xD#4, 0xF#4] ↔
      n ∉ [0x0#4, 0x1#4, 0x2#4, 0x3#4, 0x4#4, 0x5#4, 0x6#4, 0x7#4, 0xE#4] := by
  revert n
  decide

theorem decode8_eq_unknown_iff : decode8 w = .unknownOpcode op ↔
    op = w ∧ fieldN w ∈ [0x8#4, 0x9#4, 0xA#4, 0xB#4, 0xC#4, 0xD#4, 0xF#4] := by
  rw [mem_unusedSubOps]
  unfold decode8
  split
  case h_10 => simp_all [eq_comm (a := op)]
  all_goals next hn => simp [hn]

theorem decodeE_eq_unknown_iff :
    decodeE w = .unknownOpcode op ↔ op = w ∧ fieldKk w ≠ 0x9E#8 ∧ fieldKk w ≠ 0xA1#8 := by
  unfold decodeE
  split
  case h_3 => simp_all [eq_comm (a := op)]
  all_goals next hk => simp [hk]

theorem decodeF_eq_unknown_iff : decodeF w = .unknownOpcode op ↔
    op = w ∧ fieldKk w ∉ [0x07#8, 0x0A#8, 0x15#8, 0x18#8, 0x1E#8, 0x29#8, 0x33#8, 0x55#8, 0x65#8] := by
  unfold decodeF
  split
  case h_10 => simp_all [eq_comm (a := op)]
  all_goals next hk => simp [hk]

/-- The high nibble leaves of R83's list the part about its own family. -/
theorem decode_eq_unknown_iff : decode strict w = .unknownOpcode op ↔ op = w ∧ IsUnknownWord strict w := by
  unfold decode IsUnknownWord
  split
  case h_1 hh => simp [hh, decode0_eq_unknown_iff]
  case h_6 hh | h_10 hh => simp [hh, decodeRegSkip_eq_unknown_iff]
  case h_9 hh => simp [hh, decode8_eq_unknown_iff]
  case h_15 hh => simp [hh, decodeE_eq_unknown_iff]
  case h_16 =>
    have hh : fieldH w = 0xF#4 := eq_F_of_not_mem _ (by simp_all)
    simp [hh, decodeF_eq_unknown_iff]
  all_goals next hh => simp [hh]

end

/-- Settles O5, which spells out `IsUnknownWord`. -/
theorem unknownOpcodeWordsAreTheListedOnes : Obligations.UnknownOpcodeWordsAreTheListedOnes :=
  fun _ _ => decode_eq_unknown_iff.trans (and_iff_right rfl)

/-- Settles O6, by computation. -/
theorem sampleWordsDecode : Obligations.SampleWordsDecode := by
  unfold Obligations.SampleWordsDecode
  decide

end Sys2Proof
end

section
/-! The encoder's words and the opcode table against the decoder (30_encoding.md R75, R76, R86). -/

namespace Sys2Proof

/-! ## The encoder's words -/

theorem rowPattern_all (i : Instr) : Laws.RowPattern.Statement i := by
  cases i with
  | cls => exact Laws.RowPattern.cls
  | ret => exact Laws.RowPattern.ret
  | jp nnn => exact Laws.RowPattern.jp nnn
  | call nnn => exact Laws.RowPattern.call nnn
  | seImm x kk => exact Laws.RowPattern.seImm x kk
  | sneImm x kk => exact Laws.RowPattern.sneImm x kk
  | seReg x y => exact Laws.RowPattern.seReg x y
  | ldImm x kk => exact Laws.RowPattern.ldImm x kk
  | addImm x kk => exact Laws.RowPattern.addImm x kk
  | ldReg x y => exact Laws.RowPattern.ldReg x y
  | orReg x y => exact Laws.RowPattern.orReg x y
  | andReg x y => exact Laws.RowPattern.andReg x y
  | xorReg x y => exact Laws.RowPattern.xorReg x y
  | addReg x y => exact Laws.RowPattern.addReg x y
  | subReg x y => exact Laws.RowPattern.subReg x y
  | shr x => exact Laws.RowPattern.shr x
  | subnReg x y => exact Laws.RowPattern.subnReg x y
  | shl x => exact Laws.RowPattern.shl x
  | sneReg x y => exact Laws.RowPattern.sneReg x y
  | ldI nnn => exact Laws.RowPattern.ldI nnn
  | jpV0 nnn => exact Laws.RowPattern.jpV0 nnn
  | rnd x kk => exact Laws.RowPattern.rnd x kk
  | drw x y n => exact Laws.RowPattern.drw x y n
  | skp x => exact Laws.RowPattern.skp x
  | sknp x => exact Laws.RowPattern.sknp x
  | ldFromDt x => exact Laws.RowPattern.ldFromDt x
  | ldKey x => exact Laws.RowPattern.ldKey x
  | ldDt x => exact Laws.RowPattern.ldDt x
  | ldSt x => exact Laws.RowPattern.ldSt x
  | addI x => exact Laws.RowPattern.addI x
  | ldFont x => exact Laws.RowPattern.ldFont x
  | ldBcd x => exact Laws.RowPattern.ldBcd x
  | storeRegs x => exact Laws.RowPattern.storeRegs x
  | loadRegs x => exact Laws.RowPattern.loadRegs x

/-- A word of an instruction that sets no ignored bit is its encoding. -/
theorem IsWordOf.encode_eq {strict : Bool} {w : Word} {i : Instr} (h : IsWordOf strict w i)
    (hc : canonicalWord w = true) : encode i = w := by
  cases h with
  | encoding h => exact h.symm
  | @seReg x y n hs h | @sneReg x y n hs h =>
    subst h
    obtain rfl : n = 0#4 := by simpa [canonicalWord_eq] using hc
    rfl
  | @shr x y h | @shl x y h =>
    subst h
    have hy : nibble y = 0#4 := by simpa [canonicalWord_eq] using hc
    obtain rfl : y = 0 := congrArg BitVec.toFin hy
    rfl

/-- Settles O2: a word that decodes to an instruction is a word of it (`decode_eq_instr_iff`). -/
theorem encodeOfDecodeIsTheCanonicalWord : Obligations.EncodeOfDecodeIsTheCanonicalWord :=
  ⟨fun _ _ _ hd hc => (decode_eq_instr_iff.1 hd).encode_eq hc, fun i => (rowPattern_all i).2⟩

/-! ## The table -/

/-- The words of an instruction differ only in bits that the mask of its row leaves out. -/
theorem IsWordOf.matches_row {strict : Bool} {w : Word} {i : Instr} (h : IsWordOf strict w i) :
    ∃ r ∈ opcodeMap strict, r.num = rowNum i ∧ r.matches w = true := by
  cases h with
  | encoding h => exact h ▸ (rowPattern_all i).1 strict
  | seReg hs h =>
    subst hs
    exact ⟨⟨7, 0xF000#16, 0x5000#16⟩, by decide, rfl, (matches_maskH (by decide)).2 (by rw [h, fieldH_wordXYN]; rfl)⟩
  | sneReg hs h =>
    subst hs
    exact ⟨⟨19, 0xF000#16, 0x9000#16⟩, by decide, rfl, (matches_maskH (by decide)).2 (by rw [h, fieldH_wordXYN]; rfl)⟩
  | shr h =>
    exact ⟨⟨16, 0xF00F#16, 0x8006#16⟩, by cases strict <;> decide, rfl,
      (matches_maskHN (by decide)).2 (by rw [h, fieldH_wordXYN, fieldN_wordXYN]; decide)⟩
  | shl h =>
    exact ⟨⟨18, 0xF00F#16, 0x800E#16⟩, by cases strict <;> decide, rfl,
      (matches_maskHN (by decide)).2 (by rw [h, fieldH_wordXYN, fieldN_wordXYN]; decide)⟩

/-- The word decodes to an instruction of the row with that number. -/
def DecodesToRow (strict : Bool) (w : Word) (num : Nat) : Prop := ∃ i, decode strict w = .instr i ∧ rowNum i = num

theorem wordXYN_zero : ∀ h : BitVec 4, wordXYN h 0 0 0#4 = wordNnn h 0#12 := by
  decide

/-- A row whose mask follows `STRICT_REG_SKIP` (R82) is met by the high nibble, and the low one when strict. -/
theorem matches_skipMask {strict : Bool} {n : Nat} {v w : Word} (hv : wordNnn (fieldH v) 0#12 = v) :
    OpcodeRow.matches ⟨n, if strict = true then 0xF00F#16 else 0xF000#16, v⟩ w = true ↔
      fieldH w = fieldH v ∧ (strict = true → fieldN w = 0#4) := by
  have hv' : wordXYN (fieldH v) 0 0 0#4 = v := (wordXYN_zero _).trans hv
  have hn : fieldN v = 0#4 := by rw [← hv', fieldN_wordXYN]
  cases strict
  · simpa using matches_maskH hv
  · rw [if_pos rfl, matches_maskHN (by rw [hn, hv']), hn]
    simp

/-- The decoder reads the very fields that a row's mask selects. -/
theorem decodesToRow_of_matches {strict : Bool} (w : Word) :
    ∀ r ∈ opcodeMap strict, r.matches w = true → DecodesToRow strict w r.num := by
  simp only [opcodeMap, opcodeRowsLow, opcodeRowsHigh, List.cons_append, List.nil_append, List.forall_mem_cons]
  refine ⟨?cls, ?ret, ?jp, ?call, ?seImm, ?sneImm, ?seReg, ?ldImm, ?addImm, ?ldReg, ?orReg, ?andReg, ?xorReg, ?addReg,
    ?subReg, ?shr, ?subnReg, ?shl, ?sneReg, ?ldI, ?jpV0, ?rnd, ?drw, ?skp, ?sknp, ?ldFromDt, ?ldKey, ?ldDt, ?ldSt,
    ?addI, ?ldFont, ?ldBcd, ?storeRegs, ?loadRegs, by simp⟩
  case cls | ret =>
    rw [matches_maskAll]
    rintro rfl
    exact ⟨_, rfl, rfl⟩
  case jp | call | seImm | sneImm | ldImm | addImm | ldI | jpV0 | rnd | drw =>
    rw [matches_maskH (by decide)]
    intro h
    rw [DecodesToRow, decode, h]
    exact ⟨_, rfl, rfl⟩
  case seReg =>
    rw [matches_skipMask (by decide)]
    rintro ⟨h, hn⟩
    rw [DecodesToRow, decode_of_fieldH_5 strict h, decodeRegSkip_eq_ite, if_neg (by simpa using hn)]
    exact ⟨_, rfl, rfl⟩
  case sneReg =>
    rw [matches_skipMask (by decide)]
    rintro ⟨h, hn⟩
    rw [DecodesToRow, decode_of_fieldH_9 strict h, decodeRegSkip_eq_ite, if_neg (by simpa using hn)]
    exact ⟨_, rfl, rfl⟩
  case ldReg | orReg | andReg | xorReg | addReg | subReg | shr | subnReg | shl =>
    rw [matches_maskHN (by decide)]
    rintro ⟨h, hn⟩
    rw [DecodesToRow, decode_of_fieldH_8 strict h, decode8, hn]
    exact ⟨_, rfl, rfl⟩
  case skp | sknp =>
    rw [matches_maskHKk (by decide)]
    rintro ⟨h, hk⟩
    rw [DecodesToRow, decode_of_fieldH_E strict h, decodeE, hk]
    exact ⟨_, rfl, rfl⟩
  case ldFromDt | ldKey | ldDt | ldSt | addI | ldFont | ldBcd | storeRegs | loadRegs =>
    rw [matches_maskHKk (by decide)]
    rintro ⟨h, hk⟩
    rw [DecodesToRow, decode_of_fieldH_F strict h, decodeF, hk]
    exact ⟨_, rfl, rfl⟩

/-- Settles O3: a word of an instruction matches its row, a word that matches a row decodes to it, and the third clause
follows, since the decoder answers an instruction or `UnknownOpcode` of the word itself. -/
theorem decoderAgreesWithOpcodeMap : Obligations.DecoderAgreesWithOpcodeMap := by
  refine fun strict w => ⟨fun i hd => (decode_eq_instr_iff.1 hd).matches_row, decodesToRow_of_matches w, ?_⟩
  constructor
  · intro hd r hr
    rw [Bool.eq_false_iff]
    intro hm
    obtain ⟨i, hi, -⟩ := decodesToRow_of_matches w r hr hm
    rw [hd] at hi
    cases hi
  · intro hnone
    cases hd : decode strict w with
    | instr i =>
      obtain ⟨r, hr, -, hm⟩ := (decode_eq_instr_iff.1 hd).matches_row
      rw [hnone r hr] at hm
      cases hm
    | unknownOpcode op => rw [(decode_eq_unknown_iff.1 hd).1]

/-- Two rows of the table with one number are the same row. -/
theorem eq_of_num_eq : ∀ strict, ∀ r ∈ opcodeMap strict, ∀ r' ∈ opcodeMap strict, r.num = r'.num → r = r' := by
  decide

/-- Settles O4: the decoder answers one instruction, and both rows have its number. -/
theorem opcodeMapRowsAreDisjoint : Obligations.OpcodeMapRowsAreDisjoint := by
  intro strict w r hr r' hr' hm hm'
  obtain ⟨i, hd, hi⟩ := decodesToRow_of_matches w r hr hm
  obtain ⟨i', hd', hi'⟩ := decodesToRow_of_matches w r' hr' hm'
  obtain rfl : i = i' := by rw [hd] at hd'; injection hd'
  exact eq_of_num_eq strict r hr r' hr' (hi.symm.trans hi')

end Sys2Proof
end

section
/-! The step (30_encoding.md R72 to R74), and the register skips (41_conditional_skip.md R112, R113). -/

namespace Sys2Proof.Machine

/-- Settles O7: two bytes make one number high byte first, and a read masks its address to 12 bits. -/
theorem fetchIsBigEndianAtMaskedAddresses : Obligations.FetchIsBigEndianAtMaskedAddresses := by
  refine fun s => ⟨opcodeOfBytes_toNat _ _, fun a c h => memRead_congr _ ?_⟩
  rw [maskAddr_eq_mod, maskAddr_eq_mod, h]

theorem State.cycle_of_decode {s : State} {i : Instr} (hrun : s.halt = .running)
    (hd : decode s.config.strictRegSkip s.fetchWord = .instr i) (keys : BitVec 16) (r : Byte) :
    s.cycle keys r = exec i (s.latch keys r).advance := by
  rw [State.cycle_running hrun, hd]

/-- Settles O8: with a cycle input, and with none, the step is a cycle, and `State.cycle_of_decode` says what it runs. -/
theorem stepRunsTheDecodedInstruction : Obligations.StepRunsTheDecodedInstruction := by
  refine fun s i hrun hd => ⟨fun keys r rest hin => ?_, fun hin => ?_⟩
  · rw [step_of_cycle hin]
    exact State.cycle_of_decode (s := { s with inputs := rest }) hrun hd keys r
  · rw [step_of_nil hin]
    exact State.cycle_of_decode (s := { s with draws := s.draws + 1 }) hrun hd _ _

/-- Settles O10: each arm of `exec` is `.next` of a state, by computation. -/
theorem everyInstructionAnswersANextState : Obligations.EveryInstructionAnswersANextState := by
  intro i s
  cases i <;> exact ⟨_, rfl⟩

/-- A skip moves PC where its predicate holds. -/
theorem State.skipIf_of_true (s : State) {p : Bool} (h : p = true) : s.skipIf p = { s with pc := s.pc + 2#16 } := by
  rw [h, State.skipIf_true]
  rfl

theorem State.skipIf_of_false (s : State) {p : Bool} (h : p = false) : s.skipIf p = s := by
  rw [h, State.skipIf_false]

/-- Settles O20: the decoding is that of families 0x5 and 0x9, and each of the two is a skip on its comparison. -/
theorem registerSkipsCompareTheRegisters : Obligations.RegisterSkipsCompareTheRegisters := by
  refine ⟨fun strict x y n => ⟨decode_wordXYN_5 strict x y n, decode_wordXYN_9 strict x y n⟩, fun s x y => ⟨?_, ?_⟩⟩
  · exact ⟨_, rfl, fun h => s.skipIf_of_true (beq_iff_eq.2 h), fun h => s.skipIf_of_false (beq_eq_false_iff_ne.2 h)⟩
  · exact ⟨_, rfl, fun h => s.skipIf_of_true (bne_iff_ne.2 h), fun h => s.skipIf_of_false (bne_eq_false_iff_eq.2 h)⟩

end Sys2Proof.Machine
end

section
/-! Control flow (40_control_flow.md): the clear, the jumps, the call, and the return that undoes a call. -/

namespace Sys2Proof.Machine

/-- Settles O13: `CLS` puts in the clear screen, each pixel of which is off. -/
theorem clsTurnsEveryPixelOff : Obligations.ClsTurnsEveryPixelOff :=
  ⟨fun strict => decode_encode strict .cls, fun _ => ⟨_, rfl, Framebuffer.pixel_clear, rfl, fun _ => rfl⟩⟩

/-- A target field is the same number at 16 bits (00_scope.md R21). -/
theorem zext16_toNat (nnn : Addr12) : (zext16 nnn).toNat = nnn.toNat :=
  BitVec.toNat_setWidth_of_le (by decide)

/-- Settles O14: both are `setPc`, of targets whose numbers `zext16_toNat` and `indexedTarget_toNat` give. -/
theorem jumpsSetPcToTheirTarget : Obligations.JumpsSetPcToTheirTarget := by
  refine ⟨fun strict nnn => ⟨decode_encode strict (.jp nnn), decode_encode strict (.jpV0 nnn)⟩,
    fun s nnn => ⟨?_, ?_⟩⟩
  · exact ⟨_, rfl, zext16_toNat nnn, rfl, fun _ => rfl⟩
  · exact ⟨_, rfl, indexedTarget_toNat (s.reg 0) nnn, rfl, fun _ => rfl⟩

/-- Settles O15: with SP not 16, `callTo` is the push and not the overflow. -/
theorem callPushesTheReturnAddress : Obligations.CallPushesTheReturnAddress := by
  refine ⟨fun strict nnn => decode_encode strict (.call nnn), fun s nnn hsp => ?_⟩
  obtain ⟨h16, he⟩ | ⟨hfull, -⟩ := s.callTo_cases (zext16 nnn)
  · exact ⟨_, congrArg Host.Outcome.next he, zext16_toNat nnn, rfl, Vector.getElem?_set_self h16,
      fun j hj => Vector.getElem?_set_ne h16 hj.symm, rfl, fun _ => rfl⟩
  · exact absurd hfull hsp

/-- Settles O18: the CALL left the advanced PC in the slot that SP named before it (O15), and the RET takes SP back to
that slot and PC from it (O16). -/
theorem retResumesAfterTheCall : Obligations.RetResumesAfterTheCall := by
  intro s t u nnn hsp hcall husp hustack
  obtain ⟨t', hcall', -, htsp, hslot, -⟩ := callPushesTheReturnAddress.2 s nnn hsp
  obtain rfl : t = t' := Host.Outcome.next.inj (hcall.symm.trans hcall')
  have hpos : u.sp.val ≠ 0 := by
    rw [husp, htsp]
    exact Nat.succ_ne_zero _
  obtain ⟨v, hret, hvsp, hpc, hv, -⟩ := retPopsTheReturnAddress.2 u hpos
  have hback : v.sp.val = s.sp.val := by
    rw [husp, htsp] at hvsp
    exact Nat.succ.inj hvsp
  rw [hustack, hback, hslot] at hpc
  have hvstack : v.stack = u.stack := by rw [hv]
  exact ⟨v, hret, (Option.some.inj hpc).symm, Fin.ext hback, hvstack.trans hustack⟩

end Sys2Proof.Machine
end

section
/-! The conditional skips (41_conditional_skip.md R110 to R117), and the keypad that two of them test. -/

namespace Sys2Proof.Machine

/-! ## The step of a skip -/

/-- A skip's predicate reads the registers and the keypad snapshot alone. -/
theorem skipPredicate_congr {s t : State} (hv : t.v = s.v) (hkeys : t.keys = s.keys) (i : Instr) :
    skipPredicate i t = skipPredicate i s := by
  simp only [skipPredicate, State.reg_congr hv, hkeys]

/-- An instruction with a skip predicate is the skip on it. -/
theorem exec_of_skipPredicate {i : Instr} {s : State} {p : Bool} (h : skipPredicate i s = some p) :
    exec i s = .next (s.skipIf p) := by
  cases i
  case seImm | sneImm | seReg | sneReg | skp | sknp =>
    obtain rfl := Option.some.inj h
    rfl
  -- The other instructions have no predicate.
  all_goals cases h

/-- A skip adds 2 to PC, mod 65536, where its predicate holds. -/
theorem State.skipIf_pc_toNat (s : State) (p : Bool) :
    (s.skipIf p).pc.toNat = (s.pc.toNat + if p then 2 else 0) % 65536 := by
  cases p with
  | true => exact BitVec.toNat_add s.pc 2#16
  | false => exact (Nat.mod_eq_of_lt s.pc.isLt).symm

/-- Settles O12: the step is the skip at the advanced state (O8), where the predicate is the one in the statement; the
advance gives the first 2 and the skip the second. -/
theorem skipStepsAdvanceByFourOrTwo : Obligations.SkipStepsAdvanceByFourOrTwo := by
  intro s keys r rest i p hrun hin hd hp
  have hstep := (stepRunsTheDecodedInstruction s i hrun hd).1 keys r rest hin
  refine ⟨_, hstep.trans (exec_of_skipPredicate ((skipPredicate_congr rfl rfl i).trans hp)), ?_,
    State.skipIf_event .., ?_⟩
  · rw [State.skipIf_pc_toNat, BitVec.toNat_add, BitVec.toNat_ofNat]
    split <;> omega
  · rw [State.skipIf_eq]

/-! ## The predicates -/

/-- Settles O19: each of the two is a skip on its comparison with the byte. -/
theorem immediateSkipsCompareWithTheByte : Obligations.ImmediateSkipsCompareWithTheByte := by
  refine ⟨fun strict x kk => ⟨decode_encode strict (.seImm x kk), decode_encode strict (.sneImm x kk)⟩,
    fun s x kk => ⟨?_, ?_⟩⟩
  · exact ⟨_, rfl, fun h => s.skipIf_of_true (beq_iff_eq.2 h), fun h => s.skipIf_of_false (beq_eq_false_iff_ne.2 h)⟩
  · exact ⟨_, rfl, fun h => s.skipIf_of_true (bne_iff_ne.2 h), fun h => s.skipIf_of_false (bne_eq_false_iff_eq.2 h)⟩

theorem keyPressed_of_le (keys : BitVec 16) {k : Byte} (h : k.toNat ≤ 0xF) :
    keyPressed keys k = keys.getLsbD k.toNat :=
  if_pos h

theorem keyPressed_of_gt (keys : BitVec 16) {k : Byte} (h : 0xF < k.toNat) :
    keyPressed keys k = Config.keyOutOfRange k keys :=
  if_neg (Nat.not_le.2 h)

/-- Settles O21: p is `keyPressed`, on which `SKP` skips, and on whose negation `SKNP` does. -/
theorem keySkipsTestTheSnapshot : Obligations.KeySkipsTestTheSnapshot := by
  refine ⟨fun strict x => ⟨decode_encode strict (.skp x), decode_encode strict (.sknp x)⟩,
    fun s x => ⟨keyPressed s.keys (s.reg x), keyPressed_of_le s.keys, keyPressed_of_gt s.keys, ?_, ?_⟩⟩
  · rw [exec_of_skipPredicate (i := .skp x) rfl]
    cases keyPressed s.keys (s.reg x) <;> rfl
  · rw [exec_of_skipPredicate (i := .sknp x) rfl]
    cases keyPressed s.keys (s.reg x) <;> rfl

/-! ## The keypad -/

/-- Settles O38: `exec_latch` at the same random byte, which the instruction leaves at its port. -/
theorem onlyKeyInstructionsReadTheKeypad : Obligations.OnlyKeyInstructionsReadTheKeypad := by
  intro i s t keys hi h
  have hrand : t.rand = s.rand := by rw [exec_eq_update h]
  have hnokey (x) : ¬ (i = .skp x ∨ i = .sknp x ∨ i = .ldKey x) := by simpa only [not_or] using hi x
  calc exec i { s with keys := keys }
    _ = .next (t.latch keys s.rand) := exec_latch h (fun _ _ _ => rfl) (fun x he => absurd he (hnokey x))
    _ = .next { t with keys := keys } := by rw [← hrand]; rfl

end Sys2Proof.Machine
end

section
/-! The moves and the immediate add (42_move_add.md R120 to R122): each is one register write, with no flag. -/

namespace Sys2Proof.Machine

theorem State.reg_setReg_self (s : State) (x : RegIdx) (b : Byte) : (s.setReg x b).reg x = b := by
  rw [State.reg_setReg, if_pos rfl]

theorem State.reg_setReg_ne (s : State) {x k : RegIdx} (b : Byte) (h : k ≠ x) : (s.setReg x b).reg k = s.reg k := by
  rw [State.reg_setReg, if_neg h]

/-- Settles O22: each of the three is `setReg` of V[x], and a sum of two bytes is their sum as numbers mod 256. -/
theorem movesAndImmediateAddWriteVxOnly : Obligations.MovesAndImmediateAddWriteVxOnly := by
  refine ⟨fun strict x kk => ⟨decode_encode strict (.ldImm x kk), decode_encode strict (.addImm x kk)⟩,
    fun strict x y => decode_encode strict (.ldReg x y), fun s x y kk => ⟨?_, ?_, ?_⟩⟩
  · exact ⟨s.setReg x kk, rfl, fun k => s.reg_setReg x k kk, rfl, fun _ => rfl⟩
  · have hsum : ((s.setReg x (s.reg x + kk)).reg x).toNat = ((s.reg x).toNat + kk.toNat) % 256 := by
      rw [State.reg_setReg_self, BitVec.toNat_add]
    exact ⟨_, rfl, hsum, fun _ hk => s.reg_setReg_ne _ hk, rfl, fun _ => rfl⟩
  · exact ⟨s.setReg x (s.reg y), rfl, fun k => s.reg_setReg x k _, rfl, fun _ => rfl⟩

end Sys2Proof.Machine
end

section
/-! The register ALU (43_alu.md R130 to R138): the bitwise operations write V[x] alone; the others write VF first, with the
numbers their flags and results stand for. -/

namespace Sys2Proof.Machine

/-! ## The flags and results as numbers -/

theorem flagByte_decide (p : Prop) [Decidable p] : flagByte (decide p) = if p then 1#8 else 0#8 := by
  simp only [flagByte, decide_eq_true_eq]

theorem carryFlag_eq (a b : Byte) : carryFlag a b = if a.toNat + b.toNat > 255 then 1#8 else 0#8 :=
  flagByte_decide _

theorem noBorrowFlag_eq (a b : Byte) : noBorrowFlag a b = if a.toNat > b.toNat then 1#8 else 0#8 :=
  flagByte_decide _

theorem toNat_byte_sub (a b : Byte) : (a - b).toNat = (256 + a.toNat - b.toNat) % 256 := by
  have := b.isLt
  rw [BitVec.toNat_sub]
  omega

theorem shiftedOutRight_toNat (a : Byte) : (shiftedOutRight a).toNat = a.toNat % 2 := by
  rw [shiftedOutRight, BitVec.toNat_and]
  exact Nat.and_one_is_mod _

/-- Bit 7 of a byte is all that a right shift by 7 leaves, so it is the quotient by 128. -/
theorem shiftedOutLeft_toNat (a : Byte) : (shiftedOutLeft a).toNat = a.toNat / 128 := by
  have hbit : shiftedOutLeft a = shiftedOutRight (a >>> 7) := BitVec.ushiftRight_and_distrib a 0x80#8 7
  have := a.isLt
  rw [hbit, shiftedOutRight_toNat, BitVec.toNat_ushiftRight, Nat.shiftRight_eq_div_pow]
  omega

theorem toNat_byte_shiftRight_one (a : Byte) : (a >>> 1).toNat = a.toNat / 2 := by
  rw [BitVec.toNat_ushiftRight, Nat.shiftRight_eq_div_pow]

theorem toNat_byte_shiftLeft_one (a : Byte) : (a <<< 1).toNat = 2 * a.toNat % 256 := by
  rw [BitVec.toNat_shiftLeft, Nat.shiftLeft_eq, Nat.mul_comm]

/-! ## What a flag instruction leaves (R32, R138) -/

/-- VF holds the flag unless V[x], written after it, is VF; nothing beside the two registers is written. -/
theorem State.flagThenResult_frame (s : State) (x y : RegIdx) (flag result : Byte → Byte → Byte) :
    (x ≠ VF → (s.flagThenResult x y flag result).reg VF = flag (s.reg x) (s.reg y)) ∧
    (∀ k, k ≠ x → k ≠ VF → (s.flagThenResult x y flag result).reg k = s.reg k) ∧
    s.flagThenResult x y flag result = { s with v := (s.flagThenResult x y flag result).v } ∧
    ∀ a, (s.flagThenResult x y flag result).byteAt a = s.byteAt a := by
  refine ⟨fun hx => ?_, fun k hk hf => ?_, State.flagThenResult_eq .., fun a => ?_⟩
  · simp only [State.reg_flagThenResult, if_neg hx.symm, if_true]
  · simp only [State.reg_flagThenResult, if_neg hk, if_neg hf]
  · rw [State.byteAt, State.flagThenResult_mem, State.byteAt]

/-! ## The obligations -/

/-- Settles O25: each of the two is `flagThenResult` of the no-borrow flag and the difference. -/
theorem subtractionsWriteDifferenceAndNoBorrow : Obligations.SubtractionsWriteDifferenceAndNoBorrow := by
  refine ⟨fun strict x y => ⟨decode_encode strict (.subReg x y), decode_encode strict (.subnReg x y)⟩,
    fun s x y => ⟨?_, ?_⟩⟩
  · refine ⟨_, _, _, _, rfl, noBorrowFlag_eq _ _, rfl, rfl, ?_, s.flagThenResult_frame x y _ _⟩
    simp only [State.reg_flagThenResult, if_true, toNat_byte_sub]
  · refine ⟨_, _, _, _, rfl, noBorrowFlag_eq _ _, rfl, rfl, ?_, s.flagThenResult_frame x y _ _⟩
    simp only [State.reg_flagThenResult, if_true, toNat_byte_sub]

/-- Settles O26: the decoder ignores y, and each of the two is `flagThenResult` on V[x] alone. -/
theorem shiftsWriteResultAndBitShiftedOut : Obligations.ShiftsWriteResultAndBitShiftedOut := by
  refine ⟨fun strict x y => ⟨decode_eq_instr_iff.2 (.shr rfl), decode_eq_instr_iff.2 (.shl rfl)⟩,
    fun s x => ⟨?_, ?_⟩⟩
  · refine ⟨_, _, _, rfl, shiftedOutRight_toNat _, rfl, ?_, s.flagThenResult_frame x x _ _⟩
    simp only [State.reg_flagThenResult, if_true, toNat_byte_shiftRight_one]
  · refine ⟨_, _, _, rfl, shiftedOutLeft_toNat _, rfl, ?_, s.flagThenResult_frame x x _ _⟩
    simp only [State.reg_flagThenResult, if_true, toNat_byte_shiftLeft_one]

/-- Settles O23: each of the three is `setReg` of V[x] with the bitwise combination. -/
theorem bitwiseInstructionsWriteVxOnly : Obligations.BitwiseInstructionsWriteVxOnly := by
  refine ⟨fun strict x y => ⟨decode_encode strict (.orReg x y), decode_encode strict (.andReg x y),
    decode_encode strict (.xorReg x y)⟩, fun s x y => ⟨?_, ?_, ?_⟩⟩
  · refine ⟨_, rfl, fun j => ?_, fun k hk => s.reg_setReg_ne _ hk, rfl, fun _ => rfl⟩
    rw [State.reg_setReg_self, BitVec.getLsbD_or]
  · refine ⟨_, rfl, fun j => ?_, fun k hk => s.reg_setReg_ne _ hk, rfl, fun _ => rfl⟩
    rw [State.reg_setReg_self, BitVec.getLsbD_and]
  · refine ⟨_, rfl, fun j => ?_, fun k hk => s.reg_setReg_ne _ hk, rfl, fun _ => rfl⟩
    rw [State.reg_setReg_self, BitVec.getLsbD_xor]

/-- Settles O24: `ADD` writes the carry to VF and then the sum to V[x], both of the operands read before. -/
theorem addWritesSumAndCarry : Obligations.AddWritesSumAndCarry := by
  refine ⟨fun strict x y => decode_encode strict (.addReg x y),
    fun s x y => ⟨_, rfl, ?_, fun hx => ?_, fun k hk hf => ?_, rfl, fun _ => rfl⟩⟩
  · rw [State.reg_setReg_self, BitVec.toNat_add]
  · rw [State.reg_setReg_ne _ _ hx.symm, State.reg_setReg_self, carryFlag_eq]
  · rw [State.reg_setReg_ne _ _ hk, State.reg_setReg_ne _ _ hf]

end Sys2Proof.Machine
end

section
/-! The index register and memory (44_index_memory.md R140 to R146): the writes of I, the stores that raise no condition,
and the load that undoes a store. -/

namespace Sys2Proof.Machine

/-! ## The index register -/

/-- Settles O27: `LD I` is `setI` of the target field, whose number `zext16_toNat` gives. -/
theorem ldISetsTheIndexRegister : Obligations.LdISetsTheIndexRegister :=
  ⟨fun strict nnn => decode_encode strict (.ldI nnn), fun _ nnn => ⟨_, rfl, zext16_toNat nnn, rfl, fun _ => rfl⟩⟩

theorem zextByte_toNat (b : Byte) : (zextByte b).toNat = b.toNat :=
  BitVec.toNat_setWidth_of_le (by decide)

theorem fontDigitOf_lowNibble_toNat (b : Byte) : (fontDigitOf .lowNibble b).toNat = b.toNat % 16 := by
  rw [fontDigitOf, BitVec.toNat_and]
  exact Nat.and_two_pow_sub_one_eq_mod b.toNat 4

/-- Settles O28: each of the two is `setI`, of a 16-bit sum and of the address of the digit's glyph. -/
theorem addIAndLdFWriteTheIndexRegister : Obligations.AddIAndLdFWriteTheIndexRegister := by
  refine ⟨fun strict x => ⟨decode_encode strict (.addI x), decode_encode strict (.ldFont x)⟩, fun s x => ⟨?_, ?_⟩⟩
  · refine ⟨_, rfl, ?_, rfl, fun _ => rfl⟩
    rw [State.setI_i, BitVec.toNat_add, zextByte_toNat]
  · refine ⟨_, rfl, fun hfull => ?_, fun hlow => ?_, rfl, fun _ => rfl⟩
    · rw [State.setI_i, glyphAddr_toNat, hfull, fontDigitOf]
    · rw [State.setI_i, glyphAddr_toNat, hlow, fontDigitOf_lowNibble_toNat]

/-! ## Stores that raise no condition (20_memory.md R55) -/

section
variable {s : State} {a : Word} {bs : List Byte}

theorem State.storeFaults_eq_false {n : Nat}
    (h : s.config.fontProtect = .write ∨ ∀ k < n, inFont (a + BitVec.ofNat 16 k) = false) :
    s.storeFaults a n = false := by
  rw [Bool.eq_false_iff, Ne, State.storeFaults_iff]
  rintro ⟨hfault, k, hk, hin⟩
  obtain hwrite | hout := h
  · rw [hwrite] at hfault
    cases hfault
  · rw [hout k hk] at hin
    cases hin

theorem State.storeBytes_of_storeFaults_false (hf : s.storeFaults a bs.length = false) :
    s.storeBytes a bs = s.setMem (writeSeq s.mem a bs) :=
  if_neg (Bool.eq_false_iff.1 hf)

/-- A store after which the machine runs raised no condition. -/
theorem State.storeFaults_of_running (hrun : (s.storeBytes a bs).halt = .running) :
    s.storeFaults a bs.length = false := by
  obtain ⟨-, he⟩ | ⟨hf, -⟩ := s.storeBytes_cases a bs
  · rw [he] at hrun
    cases hrun
  · exact hf

/-- The byte k of the store is what the cell k on from its start then holds. -/
theorem State.storeBytes_byteAt_at (hm : Memory.wf s.mem = true) (hf : s.storeFaults a bs.length = false)
    (hl : bs.length ≤ 4096) (k : Nat) (hk : k < bs.length) :
    (s.storeBytes a bs).byteAt (a + BitVec.ofNat 16 k) = bs[k] := by
  rw [State.storeBytes_of_storeFaults_false hf]
  exact memRead_writeSeq_at hm a bs k hk hl

theorem State.storeBytes_eq_of_storeFaults_false (hf : s.storeFaults a bs.length = false) :
    s.storeBytes a bs = { s with mem := (s.storeBytes a bs).mem } := by
  rw [State.storeBytes_of_storeFaults_false hf]
  rfl

end

theorem State.regsUpTo_length_le (s : State) (x : RegIdx) : (s.regsUpTo x).length ≤ 4096 := by
  rw [State.regsUpTo_length]
  omega

/-- V[k] stands k on from the start of a store of V0 to Vx. -/
theorem State.storeBytes_regsUpTo_byteAt {s : State} {x : RegIdx} {a : Word} (hm : Memory.wf s.mem = true)
    (hf : s.storeFaults a (s.regsUpTo x).length = false) (k : RegIdx) (hk : k ≤ x) :
    (s.storeBytes a (s.regsUpTo x)).byteAt (a + BitVec.ofNat 16 k.val) = s.reg k := by
  have hlt : k.val < (s.regsUpTo x).length := by
    rw [State.regsUpTo_length]
    exact Nat.lt_succ_of_le hk
  rw [State.storeBytes_byteAt_at hm hf (s.regsUpTo_length_le x) k.val hlt, State.regsUpTo_getElem]

/-- The digits of a byte are below 10, so as bytes they are the same numbers (R143). -/
theorem decimalDigits_toNat (b : Byte) :
    (decimalDigits b).map BitVec.toNat = [b.toNat / 100, b.toNat / 10 % 10, b.toNat % 10] := by
  have := b.isLt
  simp only [decimalDigits, List.map_cons, List.map_nil, BitVec.toNat_ofNat, List.cons.injEq, and_true]
  omega

/-- Settles O29: a store of three bytes that raises no condition, of the digits `decimalDigits_toNat` gives. -/
theorem ldBStoresTheDecimalDigits : Obligations.LdBStoresTheDecimalDigits := by
  refine ⟨fun strict x => decode_encode strict (.ldBcd x), fun s x hm hfont => ?_⟩
  have hlen : (decimalDigits (s.reg x)).length ≤ 4096 := by
    rw [decimalDigits_length]
    decide
  have hf : s.storeFaults s.i (decimalDigits (s.reg x)).length = false := State.storeFaults_eq_false hfont
  have hdigit (k : Nat) (hk : k < 3) :
      ((s.storeBytes s.i (decimalDigits (s.reg x))).byteAt (s.i + BitVec.ofNat 16 k)).toNat =
        [(s.reg x).toNat / 100, (s.reg x).toNat / 10 % 10, (s.reg x).toNat % 10][k] := by
    rw [State.storeBytes_byteAt_at hm hf hlen k hk]
    simp only [← decimalDigits_toNat]
    exact (List.getElem_map BitVec.toNat).symm
  have hhundreds := hdigit 0 (by decide)
  rw [BitVec.add_zero] at hhundreds
  exact ⟨_, rfl, hhundreds, hdigit 1 (by decide), hdigit 2 (by decide),
    fun c hc => s.storeBytes_byteAt_outside s.i c _ hlen hc, State.storeBytes_eq_of_storeFaults_false hf⟩

/-- Settles O30: a store of V0 to Vx that raises no condition. -/
theorem ldStoreWritesTheRegisters : Obligations.LdStoreWritesTheRegisters := by
  refine ⟨fun strict x => decode_encode strict (.storeRegs x), fun s x hm hfont => ?_⟩
  have hf : s.storeFaults s.i (s.regsUpTo x).length = false := by
    rw [State.regsUpTo_length]
    exact State.storeFaults_eq_false (hfont.imp_right fun hout k hk => hout k (Nat.le_of_lt_succ hk))
  refine ⟨_, rfl, State.storeBytes_regsUpTo_byteAt hm hf, fun c hc => ?_, State.storeBytes_eq_of_storeFaults_false hf⟩
  refine s.storeBytes_byteAt_outside s.i c _ (s.regsUpTo_length_le x) fun k hk => hc k ?_
  rw [State.regsUpTo_length] at hk
  exact Nat.le_of_lt_succ hk

/-! ## The load (R145) -/

/-- Settles O32: the load is `loadRegsFrom`, which writes V alone. -/
theorem ldLoadReadsTheRegisters : Obligations.LdLoadReadsTheRegisters :=
  ⟨fun strict x => decode_encode strict (.loadRegs x),
    fun s x => ⟨_, rfl, s.reg_loadRegsFrom x s.i, rfl, fun _ => rfl⟩⟩

/-- Settles O33: the store raised no condition, since the machine runs after it, so V[k] stands at I + k; and from there
the load takes it (O32). -/
theorem storeThenLoadRestoresTheRegisters : Obligations.StoreThenLoadRestoresTheRegisters := by
  intro s t u x hm hstore htrun _ hmem hi
  obtain rfl := Host.Outcome.next.inj hstore
  obtain ⟨w, hload, hreg, -⟩ := ldLoadReadsTheRegisters.2 u x
  refine ⟨w, hload, fun k hk => ?_⟩
  rw [State.storeBytes_i] at hi
  rw [hreg, if_pos hk, hi, State.byteAt, hmem]
  exact State.storeBytes_regsUpTo_byteAt hm (State.storeFaults_of_running htrun) k hk

end Sys2Proof.Machine
end

section
/-! The timers (45_timers.md R150 to R153): the instructions that move them, the tick that counts them down, and the fatal
halt, which leaves the machine neither a cycle nor a tick (60_exceptions.md R207). -/

namespace Sys2Proof.Machine

/-! ## The timer instructions -/

/-- Settles O34: the three are `setReg` of V[x] with DT, and `setDt` and `setSt` of V[x]. -/
theorem timerInstructionsMoveTheTimers : Obligations.TimerInstructionsMoveTheTimers := by
  refine ⟨fun strict x => ⟨decode_encode strict (.ldFromDt x), decode_encode strict (.ldDt x),
    decode_encode strict (.ldSt x)⟩, fun s x => ⟨?_, ?_, ?_⟩⟩
  · exact ⟨s.setReg x s.dt, rfl, fun k => s.reg_setReg x k s.dt, rfl, fun _ => rfl⟩
  · exact ⟨s.setDt (s.reg x), rfl, rfl, rfl, fun _ => rfl⟩
  · exact ⟨s.setSt (s.reg x), rfl, rfl, rfl, fun _ => rfl⟩

/-! ## The tick -/

theorem State.tick_running {s : State} (h : s.halt = .running) :
    s.tick = .next { s with dt := countDown s.dt, st := countDown s.st, launch := .launched } := by
  simp only [State.tick, h]

theorem State.tick_halted {s : State} {c : FatalCode} {a : Word} (h : s.halt = .halted c a) :
    s.tick = .fault (.halted c a) := by
  simp only [State.tick, h]

/-- Settles O35: the step is the tick of a running machine, and `countDown` is the subtraction of numbers, which stops
at 0. -/
theorem tickCountsBothTimersDown : Obligations.TickCountsBothTimersDown := by
  intro s rest hrun hin
  have htick := State.tick_running (s := { s with inputs := rest }) hrun
  exact ⟨_, (step_of_tick hin).trans htick, countDown_toNat s.dt, countDown_toNat s.st, rfl⟩

/-! ## The halted machine -/

/-- Settles O53: with no input and with a cycle input the step is a cycle, with a tick input a tick, and on a halted
machine each of the two is the fault. -/
theorem haltedMachineHasNoCycleAndNoTick : Obligations.HaltedMachineHasNoCycleAndNoTick := by
  rintro s code addr hhalt (hin | ⟨keys, r, rest, hin⟩ | ⟨rest, hin⟩)
  · rw [step_of_nil hin]
    exact State.cycle_halted (s := { s with draws := s.draws + 1 }) hhalt _ _
  · rw [step_of_cycle hin]
    exact State.cycle_halted (s := { s with inputs := rest }) hhalt keys r
  · rw [step_of_tick hin]
    exact State.tick_halted (s := { s with inputs := rest }) hhalt

end Sys2Proof.Machine
end

section
/-! The random number (46_random.md R160): the byte drawn for the cycle, masked, in V[x]. -/

namespace Sys2Proof.Machine

/-- Settles O36: `RND` is `setReg` of V[x] with the and of the port's byte and the mask. -/
theorem rndMasksTheRandomByte : Obligations.RndMasksTheRandomByte := by
  refine ⟨fun strict x kk => decode_encode strict (.rnd x kk),
    fun s x kk => ⟨_, rfl, fun j => ?_, fun k hk => s.reg_setReg_ne _ hk, rfl, fun _ => rfl⟩⟩
  rw [State.reg_setReg_self, BitVec.getLsbD_and]

end Sys2Proof.Machine
end

section
/-! The sprite draw (47_draw.md R170 to R177): the targets of a draw are the pixels its sprite covers, so it toggles exactly
these, and a second draw of the same sprite toggles them back. -/

namespace Sys2Proof.Machine

section
variable (s : State) (x y : RegIdx)

/-- The pixels a sprite covers are the targets of its set bits: row j is the byte at I + j, and past an edge both sides
follow `SPRITE_EDGE` (R173, R174, R176). -/
theorem State.spriteCovers_iff_mem (n : Nat) (c : Fin 64) (r : Fin 32) :
    s.SpriteCovers x y n c r ↔ (c, r) ∈
      rowsTargets s.config.spriteEdge (originCol (s.reg x)) (originRow (s.reg y)) 0 (readSeq s.mem s.i n) := by
  simp only [State.SpriteCovers, mem_rowsTargets, spriteTarget_eq_some_iff, readSeq_length, readSeq_getElem,
    Nat.zero_add, exists_prop]
  cases s.config.spriteEdge <;> rfl

/-- The collision of a draw (R175): a covered pixel was on. -/
theorem State.drawn_hit_iff (n : Fin 16) :
    (s.drawn x y n.val).hit = true ↔ ∃ c r, s.SpriteCovers x y n.val c r ∧ s.fb.pixel c r = true := by
  simp only [s.drawn_hit x y n.val (by omega), Prod.exists, State.spriteCovers_iff_mem]

end

/-- What a sprite covers depends on I, memory, the two coordinate registers and the setting alone. -/
theorem State.spriteCovers_congr {s t : State} {x y : RegIdx} (hi : t.i = s.i) (hmem : t.mem = s.mem)
    (hconfig : t.config = s.config) (hx : t.reg x = s.reg x) (hy : t.reg y = s.reg y) (n : Nat) (c : Fin 64)
    (r : Fin 32) : t.SpriteCovers x y n c r ↔ s.SpriteCovers x y n c r := by
  simp only [State.spriteCovers_iff_mem, hi, hmem, hconfig, hx, hy]

/-- Settles O41: `DRW` puts in the canvas of `State.drawn`, whose pixels and collision are read off the covered pixels. -/
theorem drwTogglesExactlyTheCoveredPixels : Obligations.DrwTogglesExactlyTheCoveredPixels := by
  refine ⟨fun strict x y n => decode_encode strict (.drw x y n), fun s x y n => ?_⟩
  have hn : n.val ≤ 32 := by omega
  have hvf : ((s.setReg VF (flagByte (s.drawn x y n.val).hit)).setFb (s.drawn x y n.val).fb).reg VF =
      flagByte (s.drawn x y n.val).hit := s.reg_setReg_self VF _
  refine ⟨_, rfl, fun c r hcov => ?_, fun c r hcov => ?_, fun hon => ?_, fun hoff => ?_,
    fun k hk => s.reg_setReg_ne _ hk, rfl, fun _ => rfl⟩
  · exact (s.drawn_pixel x y n.val hn c r).trans (if_pos ((s.spriteCovers_iff_mem x y n.val c r).1 hcov))
  · exact (s.drawn_pixel x y n.val hn c r).trans (if_neg (mt (s.spriteCovers_iff_mem x y n.val c r).2 hcov))
  · rw [hvf, (s.drawn_hit_iff x y n).2 hon]
    rfl
  · have hmiss : (s.drawn x y n.val).hit = false := by
      rw [Bool.eq_false_iff, Ne, State.drawn_hit_iff]
      rintro ⟨c, r, hcov, hon⟩
      exact Bool.false_ne_true ((hoff c r hcov).symm.trans hon)
    rw [hvf, hmiss]
    rfl

/-- Settles O42: the first draw leaves all that decides which pixels the sprite covers, so by O41 the second toggles the
same ones back. -/
theorem drawingTwiceRestoresTheScreen : Obligations.DrawingTwiceRestoresTheScreen := by
  intro s t u x y n hx hy hst htu
  obtain ⟨t', ht, hon, hoff, -, -, hreg, hframe, -⟩ := drwTogglesExactlyTheCoveredPixels.2 s x y n
  obtain ⟨u', hu, hon', hoff', -⟩ := drwTogglesExactlyTheCoveredPixels.2 t x y n
  obtain rfl := Host.Outcome.next.inj (hst.symm.trans ht)
  obtain rfl := Host.Outcome.next.inj (htu.symm.trans hu)
  refine Framebuffer.ext_pixel fun c r => ?_
  have hsame : t.SpriteCovers x y n.val c r ↔ s.SpriteCovers x y n.val c r :=
    State.spriteCovers_congr (by rw [hframe]) (by rw [hframe]) (by rw [hframe]) (hreg x hx) (hreg y hy) n.val c r
  by_cases hcov : s.SpriteCovers x y n.val c r
  · rw [hon' c r (hsame.2 hcov), hon c r hcov, Bool.not_not]
  · rw [hoff' c r (mt hsame.1 hcov), hoff c r hcov]

end Sys2Proof.Machine
end

section
/-! The key wait (48_key_wait.md R180 to R182): one cycle of it, and by induction any number of cycles without a key. -/

namespace Sys2Proof.Machine

/-! ## One execution -/

theorem exec_ldKey_of_some {s : State} {k : Nat} (x : RegIdx) (h : lowestKey s.keys = some k) :
    exec (.ldKey x) s = .next (s.setReg x (BitVec.ofNat 8 k)) := by
  rw [exec, execLdKey, h]

theorem exec_ldKey_of_none {s : State} (x : RegIdx) (h : lowestKey s.keys = none) :
    exec (.ldKey x) s = .next (s.setPc s.pc0) := by
  rw [exec, execLdKey, h]

/-- Settles O39: the least pressed key is what the scan finds, and a key number fits a byte. -/
theorem keyWaitTakesTheLeastKeyOrStays : Obligations.KeyWaitTakesTheLeastKeyOrStays := by
  refine ⟨fun strict x => decode_encode strict (.ldKey x), fun s x => ⟨fun k hk hpressed hleast => ?_, fun hnone => ?_⟩⟩
  · have hscan := (lowestKey_eq_some_iff s.keys k).2 ⟨hk, hpressed, hleast⟩
    refine ⟨_, exec_ldKey_of_some x hscan, ?_, fun j hj => s.reg_setReg_ne _ hj, rfl, fun _ => rfl⟩
    rw [State.reg_setReg_self, BitVec.toNat_ofNat]
    omega
  · exact exec_ldKey_of_none x ((lowestKey_eq_none_iff s.keys).2 hnone)

/-! ## Any number of cycles -/

/-- A cycle without a key goes back to the instruction: only the ports and the model's own fields differ. -/
theorem step_of_keyless_wait {s : State} {x : RegIdx} {b : Byte} {rest : List HostInput} (hrun : s.halt = .running)
    (hd : decode s.config.strictRegSkip s.fetchWord = .instr (.ldKey x)) (hin : s.inputs = .cycle 0#16 b :: rest) :
    step s = .next { s with inputs := rest, keys := 0#16, rand := b, event := .ok, launch := .launched } := by
  have hnone : ∀ k < 16, (0#16).getLsbD k = false := fun _ _ => BitVec.getLsbD_zero
  rw [(stepRunsTheDecodedInstruction s _ hrun hd).1 _ _ _ hin, (keyWaitTakesTheLeastKeyOrStays.2 _ x).2 hnone]
  simp only [BitVec.add_sub_cancel]

/-- A cycle with a key ends the wait. -/
theorem step_of_pressed_wait {s : State} {x : RegIdx} {j : Nat} {keys : BitVec 16} {r : Byte} {rest : List HostInput}
    (hrun : s.halt = .running) (hd : decode s.config.strictRegSkip s.fetchWord = .instr (.ldKey x))
    (hin : s.inputs = .cycle keys r :: rest) (hj : j < 16) (hpressed : keys.getLsbD j = true)
    (hleast : ∀ i < j, keys.getLsbD i = false) :
    ∃ t, step s = .next t ∧ (t.reg x).toNat = j ∧ t.pc = s.pc + 2#16 ∧ (∀ y, y ≠ x → t.reg y = s.reg y) ∧
      t.inputs = rest := by
  have hstep : step s = exec (.ldKey x) (State.latch { s with inputs := rest } keys r).advance :=
    (stepRunsTheDecodedInstruction s _ hrun hd).1 keys r rest hin
  obtain ⟨t, ht, hkey, hother, hframe, -⟩ :=
    (keyWaitTakesTheLeastKeyOrStays.2 (State.latch { s with inputs := rest } keys r).advance x).1 j hj hpressed hleast
  exact ⟨t, hstep.trans ht, hkey, by rw [hframe]; rfl, hother, by rw [hframe]; rfl⟩

/-- After any keyless cycles the run goes on from the state they began in, but for the ports and the model's own
fields. -/
theorem run_of_keyless_waits {s : State} {x : RegIdx} {rest : List HostInput} (rs : List Byte)
    (hrun : s.halt = .running) (hd : decode s.config.strictRegSkip s.fetchWord = .instr (.ldKey x))
    (hin : s.inputs = rs.map (fun b => .cycle 0#16 b) ++ rest) :
    ∃ keys r event launch, ∀ m, Sys2Proof.core.run (rs.length + m) s =
      Sys2Proof.core.run m { s with inputs := rest, keys := keys, rand := r, event := event, launch := launch } := by
  induction rs generalizing s with
  | nil =>
    obtain rfl : s.inputs = rest := hin
    exact ⟨s.keys, s.rand, s.event, s.launch, fun m => by rw [List.length_nil, Nat.zero_add]⟩
  | cons b rs ih =>
    have hstep := step_of_keyless_wait hrun hd hin
    obtain ⟨keys, r, event, launch, hrest⟩ := ih (s := { s with
      inputs := rs.map (fun b => .cycle 0#16 b) ++ rest, keys := 0#16, rand := b, event := .ok, launch := .launched })
      hrun hd rfl
    refine ⟨keys, r, event, launch, fun m => ?_⟩
    rw [List.length_cons, Nat.succ_add]
    exact (core_run_succ _ _ _ hstep).trans (hrest m)

/-- Settles O40: the keyless cycles lead to s but for the ports and the model's own fields, and from there the cycle with
the key ends the wait. -/
theorem keyWaitEndsAtTheFirstPressedKey : Obligations.KeyWaitEndsAtTheFirstPressedKey := by
  intro s x rs j keys r rest hrun hd hin hj hpressed hleast
  obtain ⟨keys', r', event, launch, hwait⟩ := run_of_keyless_waits rs hrun hd hin
  refine ⟨⟨_, hwait 0, rfl, rfl, rfl, rfl, rfl, rfl, rfl, rfl, rfl, hrun⟩, ?_⟩
  obtain ⟨t, hstep, hend⟩ := step_of_pressed_wait (s := { s with
    inputs := .cycle keys r :: rest, keys := keys', rand := r', event := event, launch := launch })
    hrun hd rfl hj hpressed hleast
  exact ⟨t, (hwait 1).trans (core_run_succ 0 _ t hstep), hend⟩

end Sys2Proof.Machine
end

section
/-! The conditions (60_exceptions.md R201 to R208): the report of an unknown opcode, and the fatal halts. -/

namespace Sys2Proof.Machine

/-! ## The report (R201) -/

theorem State.cycle_of_unknown {s : State} {op : Word} (hrun : s.halt = .running)
    (hd : decode s.config.strictRegSkip s.fetchWord = .unknownOpcode op) (keys : BitVec 16) (r : Byte) :
    s.cycle keys r = .next { s with
      keys := keys, rand := r, pc := s.pc + 2#16, event := .unknownOpcode op s.pc, launch := .launched } := by
  simp only [State.cycle_running hrun, hd, State.reportUnknown, State.pc0_advance]
  rfl

/-- Settles O9: `UnknownOpcode` carries the word decoded, and with a cycle input, and with none, the step is a cycle. -/
theorem unknownOpcodeIsAReportedNoOp : Obligations.UnknownOpcodeIsAReportedNoOp := by
  refine fun s op hrun hd => ⟨(decode_eq_unknown_iff.1 hd).1, fun keys r rest hin => ?_, fun hin => ?_⟩
  · rw [step_of_cycle hin]
    exact State.cycle_of_unknown (s := { s with inputs := rest }) hrun hd keys r
  · rw [step_of_nil hin]
    exact State.cycle_of_unknown (s := { s with draws := s.draws + 1 }) hrun hd _ _

/-! ## The fatal halts (R202 to R208) -/

/-- Settles O17: a full stack excludes the push, and an empty one the pop. -/
theorem stackFaultsHaltAndWriteNothing : Obligations.StackFaultsHaltAndWriteNothing := by
  refine fun s nnn => ⟨fun hfull => ?_, fun hempty => ?_⟩
  · obtain ⟨hfree, -⟩ | ⟨-, he⟩ := s.callTo_cases (zext16 nnn)
    · exact absurd hfull (Nat.ne_of_lt hfree)
    · exact ⟨_, congrArg Host.Outcome.next he, rfl, rfl, rfl⟩
  · obtain ⟨-, -, hstacked, -⟩ | ⟨-, he⟩ := s.returnFromCall_cases
    · exact absurd hempty hstacked
    · exact ⟨_, congrArg Host.Outcome.next he, rfl, rfl, rfl⟩

/-- A store halts only by its fatal condition. -/
theorem State.storeBytes_of_halt_ne {s : State} {a : Word} {bs : List Byte}
    (h : (s.storeBytes a bs).halt ≠ s.halt) : s.storeBytes a bs = s.raiseFatal .fontWrite := by
  obtain ⟨-, he⟩ | ⟨-, he⟩ := s.storeBytes_cases a bs
  · exact he
  · exact absurd (congrArg State.halt he) h

/-- An instruction that changes `Halt` raises a fatal condition and does nothing else. -/
theorem exec_of_halt_ne {i : Instr} {s t : State} (h : exec i s = .next t) (hne : t.halt ≠ s.halt) :
    ∃ code, t = s.raiseFatal code := by
  obtain ⟨-, -, hwriters, -⟩ := memoryScreenAndHaltHaveTheirOwnWriters i s t h
  obtain rfl | ⟨a, rfl⟩ | ⟨x, rfl⟩ | ⟨x, rfl⟩ := hwriters (.inl hne) <;> obtain rfl := Host.Outcome.next.inj h
  · obtain ⟨_, _, -, he⟩ | ⟨-, he⟩ := s.returnFromCall_cases
    · exact absurd (congrArg State.halt he) hne
    · exact ⟨_, he⟩
  · obtain ⟨_, he⟩ | ⟨-, he⟩ := s.callTo_cases (zext16 a)
    · exact absurd (congrArg State.halt he) hne
    · exact ⟨_, he⟩
  · exact ⟨_, State.storeBytes_of_halt_ne hne⟩
  · exact ⟨_, State.storeBytes_of_halt_ne hne⟩

/-- Settles O46: a running machine that no longer runs has another `Halt`, and `raiseFatal` is the update in the
statement. -/
theorem fatalConditionsArePrecise : Obligations.FatalConditionsArePrecise :=
  fun _ _ _ hrun h hhalt => exec_of_halt_ne h (hrun ▸ hhalt)

end Sys2Proof.Machine
end

section
/-! The loads that change nothing, the invariant that a fresh machine is the reset machine, and from it the only way out of
a halt (70_reset_and_hazards.md R230 to R237). -/

namespace Sys2Proof.Machine

/-! ## Loads that are rejected or refused -/

theorem State.load_rejected {s : State} {bytes : List Byte} (hf : s.launch = .fresh)
    (hl : Config.progMax < bytes.length) : s.load bytes = .next { s with loadResult := .romTooLarge bytes.length } := by
  simp only [State.load, hf, if_neg (Nat.not_le.2 hl)]

theorem State.load_refused {s : State} (h : s.launch = .launched) (bytes : List Byte) :
    s.load bytes = .refused .loadAfterLaunch := by
  simp only [State.load, h]

/-- Settles O51: the step is the rejected load. -/
theorem tooLargeLoadChangesNothing : Obligations.TooLargeLoadChangesNothing := by
  intro s bytes rest hf hin hl
  exact (step_of_load hin).trans (State.load_rejected (s := { s with inputs := rest }) hf hl)

/-- Settles O52: the step is the refused load. -/
theorem loadAfterLaunchIsRefused : Obligations.LoadAfterLaunchIsRefused := by
  intro s bytes rest hlaunched hin
  exact (step_of_load hin).trans (State.load_refused (s := { s with inputs := rest }) hlaunched bytes)

/-! ## A fresh machine is the reset machine -/

theorem State.restart_freshIsReset (s : State) : s.restart.FreshIsReset :=
  fun _ => ⟨rfl, rfl, rfl, rfl, rfl, rfl, rfl, rfl, rfl, rfl⟩

/-- Settles O58: the reset state is a restarted state. -/
theorem resetIsFresh : Obligations.ResetIsFresh := by
  refine ⟨?_, rfl⟩
  rw [← State.restart_reset]
  exact State.restart_freshIsReset _

theorem State.freshIsReset_of_launched {s : State} (h : s.launch = .launched) : s.FreshIsReset := by
  intro hf
  rw [h] at hf
  cases hf

theorem exec_launch {i : Instr} {s t : State} (h : exec i s = .next t) : t.launch = s.launch := by
  rw [exec_eq_update h]

/-- Settles O57: a cycle, a tick and an accepted load launch the machine, a reset gives the reset machine, and a rejected
load leaves every field the invariant names. -/
theorem stepKeepsFreshIsReset : Obligations.StepKeepsFreshIsReset := by
  intro s t hs h
  obtain ⟨u, ⟨rest, d, rfl⟩, hexec | hreport | htick | hreset | hload | hreject⟩ := step_next_cases h
  · obtain ⟨keys, r, i, -, -, he⟩ := hexec
    exact State.freshIsReset_of_launched (exec_launch he)
  · obtain ⟨keys, r, op, -, -, rfl⟩ := hreport
    exact State.freshIsReset_of_launched rfl
  · obtain ⟨-, rfl⟩ := htick
    exact State.freshIsReset_of_launched rfl
  · obtain ⟨-, rfl⟩ := hreset
    exact State.restart_freshIsReset _
  · obtain ⟨bytes, -, -, rfl⟩ := hload
    exact State.freshIsReset_of_launched rfl
  · obtain ⟨bytes, -, -, rfl⟩ := hreject
    exact hs

/-! ## The way out of a halt -/

theorem State.FreshIsReset.running {s : State} (hs : s.FreshIsReset) (hf : s.launch = .fresh) : s.Running := by
  obtain ⟨-, -, -, -, -, -, -, -, hhalt, -⟩ := hs hf
  exact hhalt

/-- Settles O54: a cycle and a tick need a running machine, and so does a load, which needs a fresh one; the reset is
left. -/
theorem onlyResetLeavesAHalt : Obligations.OnlyResetLeavesAHalt := by
  intro s t hs hhalt h
  obtain ⟨u, -, hexec | hreport | htick | hreset | hload | hreject⟩ := step_next_cases h
  · obtain ⟨-, -, -, hrun, -⟩ := hexec
    exact absurd hrun hhalt
  · obtain ⟨-, -, -, hrun, -⟩ := hreport
    exact absurd hrun hhalt
  · exact absurd htick.1 hhalt
  · obtain ⟨hin, rfl⟩ := hreset
    exact ⟨hin, State.restart_halt u⟩
  · obtain ⟨-, hf, -⟩ := hload
    exact absurd (hs.running hf) hhalt
  · obtain ⟨-, hf, -⟩ := hreject
    exact absurd (hs.running hf) hhalt

end Sys2Proof.Machine
end
